-- ==== Sys2Proof/Word.lean ====
section
/-! DEFINITION. The bit-vector widths the spec uses (00_scope.md R10): bytes of 8 bits, assembled words of 16 bits, the CO2 value and the binary32 outputs of 32 bits, and the 4-bit fields of the request word and of the status. -/

namespace Sys2Proof

abbrev Byte := BitVec 8
abbrev Nibble := BitVec 4
abbrev Word16 := BitVec 16
abbrev Word32 := BitVec 32

end Sys2Proof
end

