-- ==== Sys2Proof/Config.lean ====
section
/-! DEFINITION. The build parameters of 00_scope.md R9: constants of the build, not state (10_state.md R32). -/

namespace Sys2Proof.Config

/-- The two values of `THERMAL_PRECISION` (R9, R175, R177). -/
inductive Precision where
  | binary64
  | binary32
deriving DecidableEq, Repr

/-- `THERMAL_PRECISION`: the spec's value for this hardware (R9; 90 C8; 92 D16).
UNVERIFIED, unsafe: the source says "double/float"; both values are modelled in Machine/Thu.lean (log 9). -/
def thermalPrecision : Precision := .binary64

/-- `BUF_MAX`, the largest request buffer (R9; 92 D7). -/
def bufMax : Nat := 128

/-- `FRAME_SIZE`, a PM frame from its marker through its checksum (R9; 90 C2; 92 D8). -/
def frameSize : Nat := 32

/-- `PM_SUM_LEN`, the bytes the PM checksum covers (R9). -/
def pmSumLen : Nat := 30

/-- `CO2_RESP_LEN` (R9). -/
def co2RespLen : Nat := 7

/-- `TH_LEN` (R9). -/
def thLen : Nat := 6

/-- `CRC8_POLY` (R9). -/
def crc8Poly : Byte := 0x31

/-- `CRC8_INIT` (R9). -/
def crc8Init : Byte := 0xFF

/-- `HOST_BINDING`, the open parameter of R7, R9 and R52: a type nothing constrains.
"No rule depends on it" (92 D28), and no definition of this model reads it (log 17). -/
opaque HostBinding : Type

end Sys2Proof.Config
end

