-- ==== Sys2Proof/Syntax.lean ====
section
/-! DEFINITION. The requests of the frame decoder block as syntax: the seven operations of spec/opcode_table.json (30_encoding.md R62), the request as a host writes it (R60, R61), the five units (00_scope.md R2) and the four pseudo-requests (R68). -/

namespace Sys2Proof

/-- The five functional units of R2. -/
inductive UnitId where
  | primu
  | pmu
  | co2u
  | thu
  | cmdu
deriving DecidableEq, Repr

/-- A request as R61 represents it: `(op, arg, buf)` with `len = length(buf)`.
Any `op` may stand here, the reserved ones too. -/
structure Request where
  op  : Nibble
  arg : Nibble
  buf : List Byte
deriving DecidableEq, Repr

/-- A request whose `op` names an operation (R62), one constructor per row of the operation table.
`arg` and `buf` are whatever the request carries: a bad one makes the request illegal, and R65 has the addressed unit answer it (log 8). -/
inductive Instr where
  | pmDecode (arg : Nibble) (buf : List Byte)
  | co2Decode (arg : Nibble) (buf : List Byte)
  | thDecode (arg : Nibble) (buf : List Byte)
  | cmdFrame (arg : Nibble) (buf : List Byte)
  | be16 (arg : Nibble) (buf : List Byte)
  | sum16 (arg : Nibble) (buf : List Byte)
  | crc8 (arg : Nibble) (buf : List Byte)
deriving DecidableEq, Repr

/-- The `arg` field of the request (R60). -/
def Instr.arg : Instr → Nibble
  | .pmDecode arg _ => arg
  | .co2Decode arg _ => arg
  | .thDecode arg _ => arg
  | .cmdFrame arg _ => arg
  | .be16 arg _ => arg
  | .sum16 arg _ => arg
  | .crc8 arg _ => arg

/-- The request buffer (R61). -/
def Instr.buf : Instr → List Byte
  | .pmDecode _ buf => buf
  | .co2Decode _ buf => buf
  | .thDecode _ buf => buf
  | .cmdFrame _ buf => buf
  | .be16 _ buf => buf
  | .sum16 _ buf => buf
  | .crc8 _ buf => buf

/-- The pseudo-requests of R68. -/
inductive PseudoRequest where
  | pmSleep
  | pmWake
  | pmPassiveRead
  | co2ReadReq
deriving DecidableEq, Repr

end Sys2Proof
end

