-- ==== Sys2Proof/WellFormed.lean ====
section
/-! DEFINITION. Well-formed (legal) requests, row by row of the table of 30_encoding.md R81: what `arg` and `len` each operation admits. The meanings check legality by R63 and R64 on their own (Machine/Flags.lean); that the two agree is a statement. -/

namespace Sys2Proof

/-- R81: the request's word matches its operation's row. -/
def Instr.wellFormed : Instr → Bool
  | .pmDecode arg buf => decide (arg = 0) && decide (buf.length ≤ Config.bufMax)
  | .co2Decode arg buf => decide (arg = 0) && decide (buf.length ≤ Config.bufMax)
  | .thDecode arg buf => decide (arg = 0) && decide (buf.length = 6)
  | .cmdFrame arg buf => decide (arg.toNat ≤ 3) && decide (buf.length = 0)
  | .be16 arg buf => decide (arg = 0) && decide (buf.length = 2)
  | .sum16 arg buf => decide (arg = 0) && decide (buf.length ≤ Config.bufMax)
  | .crc8 arg buf => decide (arg = 0) && decide (buf.length ≤ Config.bufMax)

end Sys2Proof
end

