-- ==== Sys2Proof/Decode.lean ====
section
/-! DEFINITION. Decoding and encoding of requests (30_encoding.md R60 to R67, R81). A request is one 16-bit request word and `len` data bytes; how the word's two bytes travel on a bus is HOST_BINDING, which is open (log 7), so the decoder takes the word as a word and the data as bytes. -/

namespace Sys2Proof

/-- Why the decoder refuses, by name. -/
inductive DecodeError where
  /-- `op` is 7 to 15 (R62, R65). -/
  | reservedOp (op : Nibble)
  /-- Fewer data bytes follow the word than its `len` field says (R60). -/
  | dataShort (len : Nat) (have_ : Nat)
deriving DecidableEq, Repr

/-! The fields of the request word (R60). -/

def wordOp (w : Word16) : Nibble := w.extractLsb' 0 4
def wordArg (w : Word16) : Nibble := w.extractLsb' 4 4
def wordLen (w : Word16) : Nat := (w.extractLsb' 8 8).toNat

/-- The request word `{len, arg, op}` (R60); `len` is its low 8 bits. -/
def mkWord (op arg : Nibble) (len : Nat) : Word16 := BitVec.ofNat 8 len ++ arg ++ op

/-- The unit an `op` selects (R62); none for a reserved one. -/
def unitOfOp (op : Nibble) : Option UnitId :=
  match op.toNat with
  | 0 => some .pmu
  | 1 => some .co2u
  | 2 => some .thu
  | 3 => some .cmdu
  | 4 => some .primu
  | 5 => some .primu
  | 6 => some .primu
  | _ => none

/-- The operation a request names (R62). Legality of `arg` and `len` is not decided here: an illegal request with a legal `op` still goes to its unit (R65). -/
def decodeRequest (r : Request) : Except DecodeError Instr :=
  match r.op.toNat with
  | 0 => .ok (.pmDecode r.arg r.buf)
  | 1 => .ok (.co2Decode r.arg r.buf)
  | 2 => .ok (.thDecode r.arg r.buf)
  | 3 => .ok (.cmdFrame r.arg r.buf)
  | 4 => .ok (.be16 r.arg r.buf)
  | 5 => .ok (.sum16 r.arg r.buf)
  | 6 => .ok (.crc8 r.arg r.buf)
  | _ => .error (.reservedOp r.op)

/-- Reads one request from its word and the bytes after it, and gives the bytes left over (R60, R61, R67: a request is `2 + len` bytes, sized by its word alone). -/
def parseRequest (w : Word16) (bytes : List Byte) : Except DecodeError (Request × List Byte) :=
  if bytes.length < wordLen w then .error (.dataShort (wordLen w) bytes.length)
  else .ok (⟨wordOp w, wordArg w, bytes.take (wordLen w)⟩, bytes.drop (wordLen w))

/-- The decoder, total on every word and every byte sequence. -/
def decode (w : Word16) (bytes : List Byte) : Except DecodeError (Instr × List Byte) :=
  match parseRequest w bytes with
  | .error e => .error e
  | .ok (r, rest) =>
    match decodeRequest r with
    | .error e => .error e
    | .ok i => .ok (i, rest)

/-- The operation number of R62. -/
def Instr.op : Instr → Nibble
  | .pmDecode _ _ => 0
  | .co2Decode _ _ => 1
  | .thDecode _ _ => 2
  | .cmdFrame _ _ => 3
  | .be16 _ _ => 4
  | .sum16 _ _ => 5
  | .crc8 _ _ => 6

/-- The unit that serves the operation (R62). -/
def Instr.unit : Instr → UnitId
  | .pmDecode _ _ => .pmu
  | .co2Decode _ _ => .co2u
  | .thDecode _ _ => .thu
  | .cmdFrame _ _ => .cmdu
  | .be16 _ _ => .primu
  | .sum16 _ _ => .primu
  | .crc8 _ _ => .primu

/-- The operation as the request that carries it (R61). -/
def Instr.toRequest (i : Instr) : Request := ⟨i.op, i.arg, i.buf⟩

/-- The request word of a request (R60). -/
def Request.word (r : Request) : Word16 := mkWord r.op r.arg r.buf.length

/-- The unit a request addresses (R62). -/
def Request.unit (r : Request) : Option UnitId := unitOfOp r.op

/-- The encoder: the request word and the data bytes. It is faithful where the byte count fits the 8-bit `len` field, as every well-formed request's does. -/
def encode (i : Instr) : Word16 × List Byte := (i.toRequest.word, i.buf)

/-- The pseudo-requests' expansions (R68). -/
def PseudoRequest.expand : PseudoRequest → Instr
  | .pmSleep => .cmdFrame 0 []
  | .pmWake => .cmdFrame 1 []
  | .pmPassiveRead => .cmdFrame 2 []
  | .co2ReadReq => .cmdFrame 3 []

/-- One row of the legality table of R81. -/
structure LegalityRow where
  mnemonic : String
  pattern  : Word16
  mask     : Word16
  argMax   : Nat
  lenMax   : Nat
deriving DecidableEq, Repr

/-- R81's seven rows. The extra conditions are bounds on `w[7:4]` and `w[15:8]`; a row without one gets the field's largest value. -/
def legalityTable : List LegalityRow :=
  [⟨"PM_DECODE", 0x0000, 0x00FF, 15, Config.bufMax⟩,
   ⟨"CO2_DECODE", 0x0001, 0x00FF, 15, Config.bufMax⟩,
   ⟨"TH_DECODE", 0x0602, 0xFFFF, 15, 255⟩,
   ⟨"CMD_FRAME", 0x0003, 0xFF0F, 3, 255⟩,
   ⟨"BE16", 0x0204, 0xFFFF, 15, 255⟩,
   ⟨"SUM16", 0x0005, 0x00FF, 15, Config.bufMax⟩,
   ⟨"CRC8", 0x0006, 0x00FF, 15, Config.bufMax⟩]

/-- A request word matches a row of R81. -/
def LegalityRow.matches (row : LegalityRow) (w : Word16) : Bool :=
  decide (w &&& row.mask = row.pattern) && decide ((wordArg w).toNat ≤ row.argMax)
    && decide (wordLen w ≤ row.lenMax)

/-- The mnemonic of the operation table's row (R62). -/
def Instr.mnemonic : Instr → String
  | .pmDecode _ _ => "PM_DECODE"
  | .co2Decode _ _ => "CO2_DECODE"
  | .thDecode _ _ => "TH_DECODE"
  | .cmdFrame _ _ => "CMD_FRAME"
  | .be16 _ _ => "BE16"
  | .sum16 _ _ => "SUM16"
  | .crc8 _ _ => "CRC8"

/-- The data bytes that stand after the request word in a number laid out as the operation table numbers bits: byte `k` is bits `16+8k+7 .. 16+8k`. -/
def tableBytes (w : Nat) : Nat → Nat → List Byte
  | _, 0 => []
  | k, n + 1 => BitVec.ofNat 8 (w >>> (16 + 8 * k)) :: tableBytes w (k + 1) n

/-- The number `w` of `nbits` bits as a request word and exactly the data bytes its `len` field asks for; bits above `nbits` are 0. -/
def tableLayout (nbits w : Nat) : Word16 × List Byte :=
  (BitVec.ofNat 16 (w % 2 ^ nbits),
    tableBytes (w % 2 ^ nbits) 0 (wordLen (BitVec.ofNat 16 (w % 2 ^ nbits))))

/-- The request that `w` stands for; `tableLayout` leaves no byte over and none short. -/
def tableRequest (nbits w : Nat) : Request :=
  ⟨wordOp (tableLayout nbits w).1, wordArg (tableLayout nbits w).1, (tableLayout nbits w).2⟩

/-- What the decoder reads from a word of the operation table. -/
def decodeTableWord (nbits w : Nat) : Option Instr :=
  match decode (tableLayout nbits w).1 (tableLayout nbits w).2 with
  | .ok (i, []) => some i
  | .ok (_, _ :: _) => none
  | .error _ => none

end Sys2Proof
end

