-- ==== Sys2Proof/Machine/CmdTable.lean ====
section
/-! DEFINITION. The CMDU's read-only table of the four upstream command frames (10_state.md R31, 44_command_frames.md R190). -/

namespace Sys2Proof.Machine

/-- `CMD[0..3]` (R190), one field per selector in the order 0, 1, 2, 3. -/
structure CmdTable where
  pmSleep       : List Byte
  pmWake        : List Byte
  pmPassiveRead : List Byte
  co2ReadReq    : List Byte
deriving DecidableEq, Repr

/-- The table as built (R190). -/
def CmdTable.built : CmdTable where
  pmSleep       := [0x42, 0x4D, 0xE4, 0x00, 0x00, 0x01, 0x73]
  pmWake        := [0x42, 0x4D, 0xE4, 0x00, 0x01, 0x01, 0x74]
  pmPassiveRead := [0x42, 0x4D, 0xE2, 0x00, 0x00, 0x01, 0x71]
  co2ReadReq    := [0xFE, 0x04, 0x00, 0x03, 0x00, 0x01, 0xD5, 0xC5]

/-- `CMD[s]`; none for a selector outside 0..3 (R40). -/
def CmdTable.entry (t : CmdTable) (s : Nat) : Option (List Byte) :=
  match s with
  | 0 => some t.pmSleep
  | 1 => some t.pmWake
  | 2 => some t.pmPassiveRead
  | 3 => some t.co2ReadReq
  | _ => none

end Sys2Proof.Machine
end

