-- ==== Sys2Proof/Machine/State.lean ====
section
/-! DEFINITION. The state of the frame decoder block (10_state.md): the interface state of each unit, the command table, and the model's record of what the host has presented and received. Responses and their payloads (R26 to R30, R70) stand here too. -/

namespace Sys2Proof.Machine

/-- The response status of R70. Codes 8 to 15 are never produced and have no constructor. -/
inductive Status where
  | ok
  | frameNotFound
  | frameTruncated
  | checksumMismatch
  | invalidResponseLength
  | temperatureCrcInvalid
  | humidityCrcInvalid
  | illegalRequest
deriving DecidableEq, Repr

/-- `PmSample`: the words `W[0..14]` (R27). -/
structure PmSample where
  w : Vector Word16 15
deriving DecidableEq, Repr

/-- The payload of a response (R26, R72, R73). -/
inductive Payload where
  | none
  | pmSample (sample : PmSample)
  | co2Value (v : Word32)
  | thermalSample (temperature humidity : Word32)
  | word16 (r : Word16)
  | bytes (bs : List Byte)
deriving DecidableEq, Repr

/-- A response is the record `(status, payload)` (R26). -/
structure Response where
  status  : Status
  payload : Payload
deriving DecidableEq, Repr

/-- The interface state of one unit (R24). -/
inductive UState where
  | idle
  | busy (req : Request)
deriving DecidableEq, Repr

/-- A delivered response beside the request it answers (R24, R206: "the response names the request"). -/
structure Delivery where
  req  : Request
  resp : Response
deriving DecidableEq, Repr

/-- One value for each of the five units (R2). -/
structure PerUnit (α : Type) where
  primu : α
  pmu   : α
  co2u  : α
  thu   : α
  cmdu  : α
deriving DecidableEq, Repr

/-- What happens next around the units (log 1): the host issues a request, one unit makes its move, or reset is asserted. -/
inductive Event where
  | host (r : Request)
  | unit (u : UnitId)
  | reset
deriving DecidableEq, Repr

/-- Everything the machine holds. `ustate` and `cmd` are the spec's state (R33); the other fields are the model's own record of the host's side of the interface (log 1, log 3, log 4). -/
structure State where
  ustate         : PerUnit UState
  waiting        : PerUnit (List Request)
  delivered      : PerUnit (List Delivery)
  ifaceDelivered : List Delivery
  cmd            : CmdTable
  schedule       : List Event
deriving DecidableEq, Repr

/-- Why the model stops. No rule of the spec reaches either. -/
inductive Fault where
  /-- Raised by every read of the request buffer at an index that is not below its length (R12, R51). Safe: the spec gives no byte there. -/
  | bufferReadOutOfRange (index length : Nat)
  /-- Raised by a read of the command table at a selector outside 0..3 (R40). Safe: the spec gives no frame there. -/
  | commandTableReadOutOfRange (selector : Nat)
deriving DecidableEq, Repr

/-- Why an instruction has no meaning. -/
inductive Refusal where
  /-- Raised only by an arm of `exec` for an instruction with no meaning yet. Safe. No arm raises it now. -/
  | notModelled (mnemonic : String)
deriving DecidableEq, Repr

/-- The machine right after reset (R33): every unit Idle, nothing pending, the command table as built. -/
def State.reset : State where
  ustate         := ⟨.idle, .idle, .idle, .idle, .idle⟩
  waiting        := ⟨[], [], [], [], []⟩
  delivered      := ⟨[], [], [], [], []⟩
  ifaceDelivered := []
  cmd            := CmdTable.built
  schedule       := []

end Sys2Proof.Machine
end

