-- ==== Sys2Proof/Machine/Ops.lean ====
section
/-! DEFINITION. The operations every meaning shares: access to a unit's part of the state, reads of the two address spaces (20_memory.md R40), delivering a response (00_scope.md R13), the acceptance of a request (10_state.md R24) and the reset effect (70 R230). The FDB has no traps and no return from one (60 R200, R207): an error is `raise`, and after it the unit is Idle like after a success. -/

namespace Sys2Proof.Machine

/-- A unit's component. -/
def PerUnit.get {α : Type} (p : PerUnit α) (u : UnitId) : α :=
  match u with
  | .primu => p.primu
  | .pmu => p.pmu
  | .co2u => p.co2u
  | .thu => p.thu
  | .cmdu => p.cmdu

/-- Replaces one unit's component. -/
def PerUnit.set {α : Type} (p : PerUnit α) (u : UnitId) (a : α) : PerUnit α :=
  match u with
  | .primu => { p with primu := a }
  | .pmu => { p with pmu := a }
  | .co2u => { p with co2u := a }
  | .thu => { p with thu := a }
  | .cmdu => { p with cmdu := a }

/-! Reads. The only access is the read of one byte (R49); outside the buffer it is a fault (R12, R51). -/

/-- `MemRead(k, 1)`, also `buf[k]` (R12). -/
def readByte (buf : List Byte) (k : Nat) : Except Fault Byte :=
  match buf[k]? with
  | some b => .ok b
  | none => .error (.bufferReadOutOfRange k buf.length)

/-- `buf[k .. k+m-1]`, byte by byte. -/
def readRange (buf : List Byte) (k : Nat) : Nat → Except Fault (List Byte)
  | 0 => .ok []
  | m + 1 => do
    let b ← readByte buf k
    let bs ← readRange buf (k + 1) m
    .ok (b :: bs)

/-- `CMD[s]` (R40, R190). -/
def readCmd (t : CmdTable) (s : Nat) : Except Fault (List Byte) :=
  match t.entry s with
  | some bs => .ok bs
  | none => .error (.commandTableReadOutOfRange s)

/-! Responses. -/

/-- `raise E`: `respond(E, none)` (R13). -/
def raise (e : Status) : Response := ⟨e, .none⟩

/-- Delivers a response: the unit goes from Busy to Idle, and nothing else of the unit is kept (R13, R24, R206). -/
def State.deliver (s : State) (u : UnitId) (r : Request) (resp : Response) : State :=
  { s with
    ustate := s.ustate.set u .idle
    delivered := s.delivered.set u (s.delivered.get u ++ [⟨r, resp⟩]) }

/-- The request interface's own answer: it occupies no unit and changes no `ustate` (R65). -/
def State.deliverInterface (s : State) (r : Request) (resp : Response) : State :=
  { s with ifaceDelivered := s.ifaceDelivered ++ [⟨r, resp⟩] }

/-- The host presents a request to a unit; it is held until the unit accepts it (R24, R213). -/
def State.present (s : State) (u : UnitId) (r : Request) : State :=
  { s with waiting := s.waiting.set u (s.waiting.get u ++ [r]) }

/-- An Idle unit accepts the request `r`, leaving `rest` waiting (R24). -/
def State.accept (s : State) (u : UnitId) (r : Request) (rest : List Request) : State :=
  { s with
    ustate := s.ustate.set u (.busy r)
    waiting := s.waiting.set u rest }

/-- Puts one unit's interface state back to Idle with no response. -/
def State.dropRequest (s : State) (u : UnitId) : State :=
  { s with ustate := s.ustate.set u .idle }

/-- The reset effect (R230): every unit Idle, a request in flight dropped, what was delivered stays delivered, the command table unchanged. Requests no unit had accepted stay the host's (log 5). -/
def State.resetEffect (s : State) : State :=
  { s with ustate := ⟨.idle, .idle, .idle, .idle, .idle⟩ }

end Sys2Proof.Machine
end

