-- ==== Sys2Proof/Machine/Operands.lean ====
section
/-! DEFINITION. Operand assembly (30_encoding.md R80, 20_memory.md R43 to R46): every multi-byte operand is big-endian and unsigned. -/

namespace Sys2Proof.Machine

/-- `BE16(hi, lo)` (R100): `hi` is bits [15:8], `lo` bits [7:0]. -/
def be16 (hi lo : Byte) : Word16 := hi ++ lo

/-- The 16-bit field at indices `k, k+1` (R43). -/
def readWord (buf : List Byte) (k : Nat) : Except Fault Word16 := do
  let hi ← readByte buf k
  let lo ← readByte buf (k + 1)
  .ok (be16 hi lo)

/-- The words `W[0..14]` of the PM frame whose marker is at `i`: `W[j]` at `i+2+2j` (R75, R124). -/
def readPmWords (buf : List Byte) (i : Nat) : Except Fault PmSample := do
  let w0 ← readWord buf (i + 2)
  let w1 ← readWord buf (i + 4)
  let w2 ← readWord buf (i + 6)
  let w3 ← readWord buf (i + 8)
  let w4 ← readWord buf (i + 10)
  let w5 ← readWord buf (i + 12)
  let w6 ← readWord buf (i + 14)
  let w7 ← readWord buf (i + 16)
  let w8 ← readWord buf (i + 18)
  let w9 ← readWord buf (i + 20)
  let w10 ← readWord buf (i + 22)
  let w11 ← readWord buf (i + 24)
  let w12 ← readWord buf (i + 26)
  let w13 ← readWord buf (i + 28)
  let w14 ← readWord buf (i + 30)
  .ok ⟨#v[w0, w1, w2, w3, w4, w5, w6, w7, w8, w9, w10, w11, w12, w13, w14]⟩

/-! The fields of a sample (R27); no other word has a name (92 D34). -/

def PmSample.frameLength (p : PmSample) : Word16 := p.w[0]
def PmSample.pmSpUg25 (p : PmSample) : Word16 := p.w[2]
def PmSample.reserved (p : PmSample) : Word16 := p.w[13]
def PmSample.checksum (p : PmSample) : Word16 := p.w[14]

/-- `zext_32` of an assembled word (R80, R153). -/
def zext32 (w : Word16) : Word32 := w.setWidth 32

/-- `zext_16` of a byte (R30, R106). -/
def zext16 (b : Byte) : Word16 := b.setWidth 16

end Sys2Proof.Machine
end

