-- ==== Sys2Proof/Machine/Flags.lean ====
section
/-! DEFINITION. The status code is the FDB's only condition code (10_state.md R26). Here: the status numbers (R70), the legality checks that lead to ILLEGAL_REQUEST (R63 to R66), the two integrity computations the decoders compare with (40_primitives.md R102, R105), and the one shape every meaning has. -/

namespace Sys2Proof.Machine

/-- The 4-bit code of a status (R70). -/
def Status.code : Status → Nibble
  | .ok => 0
  | .frameNotFound => 1
  | .frameTruncated => 2
  | .checksumMismatch => 3
  | .invalidResponseLength => 4
  | .temperatureCrcInvalid => 5
  | .humidityCrcInvalid => 6
  | .illegalRequest => 7

/-- The status of a code; codes 8 to 15 are reserved (R70). -/
def Status.ofCode (c : Nibble) : Option Status :=
  match c.toNat with
  | 0 => some .ok
  | 1 => some .frameNotFound
  | 2 => some .frameTruncated
  | 3 => some .checksumMismatch
  | 4 => some .invalidResponseLength
  | 5 => some .temperatureCrcInvalid
  | 6 => some .humidityCrcInvalid
  | 7 => some .illegalRequest
  | _ => none

/-- R63: `arg` is the selector 0 to 3 for CMD_FRAME and 0 for every other operation. -/
def argLegal : Instr → Bool
  | .pmDecode arg _ => arg == 0
  | .co2Decode arg _ => arg == 0
  | .thDecode arg _ => arg == 0
  | .cmdFrame arg _ => decide (arg.toNat ≤ 3)
  | .be16 arg _ => arg == 0
  | .sum16 arg _ => arg == 0
  | .crc8 arg _ => arg == 0

/-- R64: the legal `len` of each operation. -/
def lenLegal : Instr → Bool
  | .pmDecode _ buf => decide (buf.length ≤ Config.bufMax)
  | .co2Decode _ buf => decide (buf.length ≤ Config.bufMax)
  | .thDecode _ buf => buf.length == Config.thLen
  | .cmdFrame _ buf => buf.length == 0
  | .be16 _ buf => buf.length == 2
  | .sum16 _ buf => decide (buf.length ≤ Config.bufMax)
  | .crc8 _ buf => decide (buf.length ≤ Config.bufMax)

/-- R65: a request with a legal `op` is illegal when its `arg` breaks R63 or its `len` breaks R64. -/
def legal (i : Instr) : Bool := argLegal i && lenLegal i

/-- The answer to an illegal request (R65, R72): payload `none`, and `Co2Value 0` for CO2_DECODE. -/
def illegalResponse : Instr → Response
  | .co2Decode _ _ => ⟨.illegalRequest, .co2Value 0⟩
  | .pmDecode _ _ => raise .illegalRequest
  | .thDecode _ _ => raise .illegalRequest
  | .cmdFrame _ _ => raise .illegalRequest
  | .be16 _ _ => raise .illegalRequest
  | .sum16 _ _ => raise .illegalRequest
  | .crc8 _ _ => raise .illegalRequest

/-- `SUM16(seq)` (R102): a 16-bit accumulator from 0. -/
def sum16 (seq : List Byte) : Word16 := seq.foldl (fun acc b => acc + zext16 b) 0

/-- One shift step of the CRC-8 (R105). -/
def crc8Shift (crc : Byte) : Byte :=
  if crc.getLsbD 7 then (crc <<< 1) ^^^ Config.crc8Poly else crc <<< 1

/-- Eight shift steps (R105). -/
def crc8Shift8 (crc : Byte) : Byte :=
  crc8Shift (crc8Shift (crc8Shift (crc8Shift (crc8Shift (crc8Shift (crc8Shift (crc8Shift crc)))))))

/-- `CRC8(seq)` (R105): initial value 0xFF, MSB first, no reflection, no final XOR. -/
def crc8 (seq : List Byte) : Byte := seq.foldl (fun crc b => crc8Shift8 (crc ^^^ b)) Config.crc8Init

/-- The shape every operation has: the unit checks legality before every check of the operation's own rule (R65, R66), then `body` computes the response, and the response is delivered (R13, R24). A read that `body` makes outside the buffer is a fault (R12, R51). -/
def serve (i : Instr) (body : Except Fault Response) (s : State) : Host.Outcome State Fault Refusal :=
  if legal i then
    match body with
    | .ok resp => .next (s.deliver i.unit i.toRequest resp)
    | .error f => .fault f
  else .next (s.deliver i.unit i.toRequest (illegalResponse i))

end Sys2Proof.Machine
end

