-- ==== Sys2Proof/Machine/Cmdu.lean ====
section
/-! DEFINITION. The command unit (44_command_frames.md R190 to R193). -/

namespace Sys2Proof.Machine

/-- R191: the frame that the selector names. -/
def cmdResponse (t : CmdTable) (arg : Nibble) : Except Fault Response := do
  let bs ← readCmd t arg.toNat
  .ok ⟨.ok, .bytes bs⟩

/-- CMD_FRAME (R191). -/
def execCmdFrame (arg : Nibble) (buf : List Byte) (s : State) : Host.Outcome State Fault Refusal :=
  serve (.cmdFrame arg buf) (cmdResponse s.cmd arg) s

end Sys2Proof.Machine
end

