-- ==== Sys2Proof/Machine/Co2u.lean ====
section
/-! DEFINITION. The CO2 unit (42_co2.md R150 to R155). -/

namespace Sys2Proof.Machine

/-- R150: the length check (R152), then bytes 3 and 4 (R153) and nothing else (R154). -/
def co2Response (buf : List Byte) : Except Fault Response :=
  if buf.length = Config.co2RespLen then do
    let r3 ← readByte buf 3
    let r4 ← readByte buf 4
    .ok ⟨.ok, .co2Value (zext32 (be16 r3 r4))⟩
  else .ok ⟨.invalidResponseLength, .co2Value 0⟩

/-- CO2_DECODE (R150). -/
def execCo2Decode (arg : Nibble) (buf : List Byte) (s : State) : Host.Outcome State Fault Refusal :=
  serve (.co2Decode arg buf) (co2Response buf) s

end Sys2Proof.Machine
end

