-- ==== Sys2Proof/Machine/Pmu.lean ====
section
/-! DEFINITION. The particulate-matter unit: the Frame Scanner and the PM decoder (41_pm_scanner_decoder.md R120 to R133). -/

namespace Sys2Proof.Machine

/-- The scan (R121) from candidate position `i`: the first position in `i .. n-2` that holds `42 4D`. The first argument bounds the number of positions examined (R235). -/
def scanFrom (buf : List Byte) : Nat → Nat → Except Fault (Option Nat)
  | 0, _ => .ok none
  | fuel + 1, i =>
    if i + 1 < buf.length then do
      let a ← readByte buf i
      let b ← readByte buf (i + 1)
      if a = 0x42 ∧ b = 0x4D then .ok (some i) else scanFrom buf fuel (i + 1)
    else .ok none

/-- The whole scan, candidate positions `0 .. n-2`. -/
def scan (buf : List Byte) : Except Fault (Option Nat) := scanFrom buf buf.length 0

/-- What follows a match at `i`: the length check (R123), extraction (R124), the checksum (R125, R126). -/
def pmFrameResponse (buf : List Byte) (i : Nat) : Except Fault Response :=
  if buf.length - i < Config.frameSize then .ok (raise .frameTruncated)
  else do
    let sample ← readPmWords buf i
    let summed ← readRange buf i Config.pmSumLen
    if sum16 summed = sample.checksum then .ok ⟨.ok, .pmSample sample⟩
    else .ok (raise .checksumMismatch)

/-- R120: the first match decides (R128), and no match is FRAME_NOT_FOUND (R122). -/
def pmResponse (buf : List Byte) : Except Fault Response := do
  match ← scan buf with
  | none => .ok (raise .frameNotFound)
  | some i => pmFrameResponse buf i

/-- PM_DECODE (R120). -/
def execPmDecode (arg : Nibble) (buf : List Byte) (s : State) : Host.Outcome State Fault Refusal :=
  serve (.pmDecode arg buf) (pmResponse buf) s

end Sys2Proof.Machine
end

