-- ==== Sys2Proof/Machine/Primu.lean ====
section
/-! DEFINITION. The primitive unit's three operations (40_primitives.md R101, R103, R106). -/

namespace Sys2Proof.Machine

/-- R101. -/
def be16Response (buf : List Byte) : Except Fault Response := do
  let hi ← readByte buf 0
  let lo ← readByte buf 1
  .ok ⟨.ok, .word16 (be16 hi lo)⟩

/-- R103. -/
def sum16Response (buf : List Byte) : Except Fault Response := do
  let bs ← readRange buf 0 buf.length
  .ok ⟨.ok, .word16 (sum16 bs)⟩

/-- R106. -/
def crc8Response (buf : List Byte) : Except Fault Response := do
  let bs ← readRange buf 0 buf.length
  .ok ⟨.ok, .word16 (zext16 (crc8 bs))⟩

/-- BE16 (R101). -/
def execBe16 (arg : Nibble) (buf : List Byte) (s : State) : Host.Outcome State Fault Refusal :=
  serve (.be16 arg buf) (be16Response buf) s

/-- SUM16 (R103). -/
def execSum16 (arg : Nibble) (buf : List Byte) (s : State) : Host.Outcome State Fault Refusal :=
  serve (.sum16 arg buf) (sum16Response buf) s

/-- CRC8 (R106). -/
def execCrc8 (arg : Nibble) (buf : List Byte) (s : State) : Host.Outcome State Fault Refusal :=
  serve (.crc8 arg buf) (crc8Response buf) s

end Sys2Proof.Machine
end

