-- ==== Sys2Proof/Machine/Float.lean ====
section
/-! DEFINITION. The IEEE-754 arithmetic the thermal conversions need (00_scope.md R14, 43_thermal.md R175 to R177): multiplication, division and subtraction, each exact over the rationals and then rounded once to nearest, ties to even; and the binary32 bit pattern (30_encoding.md R73). Values are finite: no operand or result of R175 to R177 is a NaN or an infinity (R176, R179; log 10). -/

namespace Sys2Proof.Machine

/-- `2^n`. -/
def pow2 (n : Nat) : Nat := Nat.pow 2 n

/-- A finite value `(-1)^neg · num/den`; for a value of a binary format `den` is a power of two. Both zeros are here. -/
structure Fp where
  neg : Bool
  num : Nat
  den : Nat
deriving DecidableEq, Repr

/-- A binary format: its significand's bits, and `maxScale` such that its least positive value is `2^(-maxScale)`. -/
structure FpFormat where
  prec     : Nat
  maxScale : Nat
deriving DecidableEq, Repr

def FpFormat.binary32 : FpFormat := ⟨24, 149⟩
def FpFormat.binary64 : FpFormat := ⟨53, 1074⟩

/-- A whole number; exact in either format while it is below `2^24`, as every constant and raw code here is (R175, R177). -/
def Fp.ofNat (n : Nat) : Fp := ⟨false, n, 1⟩

/-- The quotient rounded to the nearest whole number, ties to even. -/
def roundDiv (n d : Nat) : Nat :=
  if 2 * (n % d) < d then n / d
  else if d < 2 * (n % d) then n / d + 1
  else if n / d % 2 = 0 then n / d else n / d + 1

/-- `log2 num - expGap num den` is the largest `k` with `2^k ≤ num/den`, for nonzero `num` and `den`. -/
def expGap (num den : Nat) : Nat :=
  if num * pow2 (Nat.log2 den) < den * pow2 (Nat.log2 num) then Nat.log2 den + 1 else Nat.log2 den

/-- How far `num/den` is scaled up so that its integer part has `prec` bits, but for values below the least normal one. -/
def scaleUp (f : FpFormat) (num den : Nat) : Nat :=
  min (f.prec - 1 + expGap num den - Nat.log2 num) f.maxScale

/-- How far `num/den` is scaled down so that its integer part has `prec` bits. One of the two scales is 0. -/
def scaleDown (f : FpFormat) (num den : Nat) : Nat :=
  Nat.log2 num - (f.prec - 1 + expGap num den)

/-- Rounds `(-1)^neg · num/den` to a format: nearest, ties to even. -/
def roundFrac (f : FpFormat) (neg : Bool) (num den : Nat) : Fp :=
  if num = 0 then ⟨neg, 0, 1⟩
  else
    ⟨neg,
      roundDiv (num * pow2 (scaleUp f num den)) (den * pow2 (scaleDown f num den)) * pow2 (scaleDown f num den),
      pow2 (scaleUp f num den)⟩

/-- One multiplication of a format. -/
def Fp.mul (f : FpFormat) (x y : Fp) : Fp :=
  roundFrac f (x.neg ^^ y.neg) (x.num * y.num) (x.den * y.den)

/-- One division of a format, by a nonzero `y`. -/
def Fp.div (f : FpFormat) (x y : Fp) : Fp :=
  roundFrac f (x.neg ^^ y.neg) (x.num * y.den) (x.den * y.num)

/-- The sum `(-1)^sx · a/d + (-1)^sy · b/d`, rounded. Terms of opposite signs that cancel give +0. -/
def addSigned (f : FpFormat) (sx : Bool) (a : Nat) (sy : Bool) (b d : Nat) : Fp :=
  if sx = sy then roundFrac f sx (a + b) d
  else if a < b then roundFrac f sy (b - a) d
  else if b < a then roundFrac f sx (a - b) d
  else ⟨false, 0, 1⟩

/-- One subtraction of a format. -/
def Fp.sub (f : FpFormat) (x y : Fp) : Fp :=
  addSigned f x.neg (x.num * y.den) (!y.neg) (y.num * x.den) (x.den * y.den)

/-- The bit pattern of a value that is already of the binary32 format: sign bit 31, exponent [30:23], fraction [22:0] (R73). A value of `2^128` or more is the infinity IEEE-754 gives; R176 says none occurs. -/
def Fp.pack32 (x : Fp) : Word32 :=
  let sign := if x.neg then pow2 31 else 0
  if x.num = 0 then BitVec.ofNat 32 sign
  else if Nat.log2 x.den + 127 < Nat.log2 x.num then BitVec.ofNat 32 (sign + 255 * pow2 23)
  else if Nat.log2 x.num + 126 < Nat.log2 x.den then BitVec.ofNat 32 (sign + x.num * pow2 149 / x.den)
  else
    BitVec.ofNat 32
      (sign + (Nat.log2 x.num + 127 - Nat.log2 x.den) * pow2 23
        + (x.num * pow2 23 / pow2 (Nat.log2 x.num) - pow2 23))

/-- `to_fp32(x)` (R14, R176): rounds to binary32 and gives the bit pattern. -/
def Fp.toFp32 (x : Fp) : Word32 := (roundFrac .binary32 x.neg x.num x.den).pack32

/-- The value of a binary32 bit pattern whose exponent field is not 255 (R73). -/
def fp32Value (w : Word32) : Fp :=
  let e := (w.extractLsb' 23 8).toNat
  let m := (w.extractLsb' 0 23).toNat
  if e = 0 then ⟨w.getLsbD 31, m, pow2 149⟩
  else ⟨w.getLsbD 31, (m + pow2 23) * pow2 (e - 150), pow2 (150 - e)⟩

end Sys2Proof.Machine
end

