-- ==== Sys2Proof/Machine/Thu.lean ====
section
/-! DEFINITION. The thermal unit (43_thermal.md R170 to R180). -/

namespace Sys2Proof.Machine

/-- `CONV_T` (R175) and `CONV_T32` (R177): multiply by 175, divide by 65535, subtract 45, in this order. -/
def convT (p : Config.Precision) (raw : Word16) : Word32 :=
  match p with
  | .binary64 =>
    (Fp.sub .binary64 (Fp.div .binary64 (Fp.mul .binary64 (Fp.ofNat 175) (Fp.ofNat raw.toNat)) (Fp.ofNat 65535))
      (Fp.ofNat 45)).toFp32
  | .binary32 =>
    (Fp.sub .binary32 (Fp.div .binary32 (Fp.mul .binary32 (Fp.ofNat 175) (Fp.ofNat raw.toNat)) (Fp.ofNat 65535))
      (Fp.ofNat 45)).pack32

/-- `CONV_H` (R176) and `CONV_H32` (R177): multiply by 100, divide by 65535. -/
def convH (p : Config.Precision) (raw : Word16) : Word32 :=
  match p with
  | .binary64 =>
    (Fp.div .binary64 (Fp.mul .binary64 (Fp.ofNat 100) (Fp.ofNat raw.toNat)) (Fp.ofNat 65535)).toFp32
  | .binary32 =>
    (Fp.div .binary32 (Fp.mul .binary32 (Fp.ofNat 100) (Fp.ofNat raw.toNat)) (Fp.ofNat 65535)).pack32

/-- R170 for one value of THERMAL_PRECISION: the temperature CRC before the humidity CRC (R172), no conversion after a failure (R173), no clamping (R180). -/
def thResponse (p : Config.Precision) (buf : List Byte) : Except Fault Response := do
  let b0 ← readByte buf 0
  let b1 ← readByte buf 1
  let b2 ← readByte buf 2
  if crc8 [b0, b1] ≠ b2 then .ok (raise .temperatureCrcInvalid)
  else do
    let b3 ← readByte buf 3
    let b4 ← readByte buf 4
    let b5 ← readByte buf 5
    if crc8 [b3, b4] ≠ b5 then .ok (raise .humidityCrcInvalid)
    else .ok ⟨.ok, .thermalSample (convT p (be16 b0 b1)) (convH p (be16 b3 b4))⟩

/-- TH_DECODE (R170), at the build's THERMAL_PRECISION (R9). -/
def execThDecode (arg : Nibble) (buf : List Byte) (s : State) : Host.Outcome State Fault Refusal :=
  serve (.thDecode arg buf) (thResponse Config.thermalPrecision buf) s

end Sys2Proof.Machine
end

