-- ==== Sys2Proof/Machine/Dispatch.lean ====
section
/-! DEFINITION. One arm per operation of the table (30_encoding.md R62). -/

namespace Sys2Proof.Machine

def exec (i : Instr) (s : State) : Host.Outcome State Fault Refusal :=
  match i with
  | .pmDecode arg buf => Sys2Proof.Machine.execPmDecode arg buf s
  | .co2Decode arg buf => Sys2Proof.Machine.execCo2Decode arg buf s
  | .thDecode arg buf => Sys2Proof.Machine.execThDecode arg buf s
  | .cmdFrame arg buf => Sys2Proof.Machine.execCmdFrame arg buf s
  | .be16 arg buf => Sys2Proof.Machine.execBe16 arg buf s
  | .sum16 arg buf => Sys2Proof.Machine.execSum16 arg buf s
  | .crc8 arg buf => Sys2Proof.Machine.execCrc8 arg buf s

end Sys2Proof.Machine
end

