-- ==== Sys2Proof/Machine/Schedule.lean ====
section
/-! DEFINITION. The moves of the agents (60_exceptions.md R208): the host issues a request, a unit accepts or answers one (10_state.md R24), reset is asserted (70 R230); and which of them is next (log 1, log 2). -/

namespace Sys2Proof.Machine

/-- The host issues a request (R213). The request interface hands it to the unit `op` names, which holds the host until it can accept (R24); it answers a reserved `op` itself, occupying no unit (R65; log 14). -/
def hostMove (s : State) (r : Request) : State :=
  match decodeRequest r with
  | .ok i => s.present i.unit r
  | .error _ => s.deliverInterface r (raise .illegalRequest)

/-- One step of a unit (R24, R208). Busy: it answers the request it holds, by that request's operation. Idle with a request presented: it accepts the oldest. Idle otherwise: nothing. The request held by a unit always names an operation (the invariant `State.Wired`); in a state where one does not, the interface answers it (log 13). -/
def unitMove (s : State) (u : UnitId) : Host.Outcome State Fault Refusal :=
  match s.ustate.get u with
  | .busy r =>
    match decodeRequest r with
    | .ok i => exec i s
    | .error _ => .next ((s.dropRequest u).deliverInterface r (raise .illegalRequest))
  | .idle =>
    match s.waiting.get u with
    | [] => .next s
    | r :: rest => .next (s.accept u r rest)

/-- One event, on the state whose schedule already starts after it. -/
def eventMove (s : State) (e : Event) : Host.Outcome State Fault Refusal :=
  match e with
  | .host r => .next (hostMove s r)
  | .unit u => unitMove s u
  | .reset => .next s.resetEffect

/-- A unit that has a move: it is Busy, or a request is presented to it. -/
def State.enabled (s : State) (u : UnitId) : Bool :=
  match s.ustate.get u with
  | .busy _ => true
  | .idle => !(s.waiting.get u).isEmpty

/-- The first unit that has a move, in the order of R24. -/
def State.firstEnabled (s : State) : Option UnitId :=
  [UnitId.primu, UnitId.pmu, UnitId.co2u, UnitId.thu, UnitId.cmdu].find? s.enabled

/-- The next move: the schedule's first event; with no event left, the first unit that has a move, so that a Busy unit eventually answers (R235; log 2); with none, the FDB waits for requests (R231). -/
def advance (s : State) : Host.Outcome State Fault Refusal :=
  match s.schedule with
  | e :: rest => eventMove { s with schedule := rest } e
  | [] =>
    match s.firstEnabled with
    | some u => unitMove s u
    | none => .next s

/-- Puts the request that `w` stands for where the next step takes it up: the unit it addresses is Busy with it and moves next; a request with a reserved `op` is the host's next move (log 6). -/
def State.loadWord (s : State) (nbits w : Nat) : State :=
  match (tableRequest nbits w).unit with
  | some u =>
    { s with
      ustate := s.ustate.set u (.busy (tableRequest nbits w))
      schedule := .unit u :: s.schedule }
  | none => { s with schedule := .host (tableRequest nbits w) :: s.schedule }

end Sys2Proof.Machine
end

