-- ==== Sys2Proof/Machine/Step.lean ====
section
/-! DEFINITION. The step function, and the placing of a request where the next step takes it up. The FDB has no program counter and fetches no instruction (10_state.md R21, 20_memory.md R55): what a step runs is the request a unit holds as `Busy(req)`. -/

namespace Sys2Proof.Machine

/-- One move of one agent. -/
def step (s : State) : Host.Outcome State Fault Refusal := advance s

/-- The state whose very next step runs the request of `w` (log 6). -/
def State.withFetchWord (s : State) (nbits w : Nat) : State := s.loadWord nbits w

end Sys2Proof.Machine
end

