-- ==== Sys2Proof/Machine/Asm.lean ====
section
/-! DEFINITION. The textual form of requests and responses (30_encoding.md R68; 92 D32). Nothing in the machine reads it. How a payload is spelled follows the examples of the operation rules where they fix it (log 18). -/

namespace Sys2Proof.Machine

def hexDigit (n : Nat) : Char := if n < 10 then Char.ofNat (48 + n) else Char.ofNat (55 + n)

/-- The low `digits` hexadecimal digits of a number, most significant first. -/
def hexText : Nat → Nat → List Char
  | 0, _ => []
  | digits + 1, n => hexText digits (n / 16) ++ [hexDigit (n % 16)]

/-- Data bytes in hexadecimal in transmission order, one space apart. -/
def bytesText : List Byte → List Char
  | [] => []
  | [b] => hexText 2 b.toNat
  | b :: c :: bs => hexText 2 b.toNat ++ ' ' :: bytesText (c :: bs)

/-- `[b0 b1 ...]`. -/
def bracketed (bs : List Byte) : List Char := '[' :: bytesText bs ++ [']']

/-- `0x` and four hexadecimal digits. -/
def wordText (w : Word16) : List Char := '0' :: 'x' :: hexText 4 w.toNat

/-- A request as R68 writes it: `MNEMONIC [b0 b1 ...]`, and `CMD_FRAME s` with no bytes. A form that R68 has no spelling for gives none: a nonzero `arg` outside CMD_FRAME, or data bytes with CMD_FRAME. -/
def requestText (i : Instr) : Option (List Char) :=
  match i with
  | .cmdFrame arg buf =>
    if buf.isEmpty then some (i.mnemonic.toList ++ ' ' :: (toString arg.toNat).toList) else none
  | .pmDecode arg buf => if arg == 0 then some (i.mnemonic.toList ++ ' ' :: bracketed buf) else none
  | .co2Decode arg buf => if arg == 0 then some (i.mnemonic.toList ++ ' ' :: bracketed buf) else none
  | .thDecode arg buf => if arg == 0 then some (i.mnemonic.toList ++ ' ' :: bracketed buf) else none
  | .be16 arg buf => if arg == 0 then some (i.mnemonic.toList ++ ' ' :: bracketed buf) else none
  | .sum16 arg buf => if arg == 0 then some (i.mnemonic.toList ++ ' ' :: bracketed buf) else none
  | .crc8 arg buf => if arg == 0 then some (i.mnemonic.toList ++ ' ' :: bracketed buf) else none

/-- The spelling of a pseudo-request (R68). -/
def pseudoText : PseudoRequest → List Char
  | .pmSleep => "PM_SLEEP".toList
  | .pmWake => "PM_WAKE".toList
  | .pmPassiveRead => "PM_PASSIVE_READ".toList
  | .co2ReadReq => "CO2_READ_REQ".toList

/-- The name of a status (R70). -/
def statusText : Status → List Char
  | .ok => "OK".toList
  | .frameNotFound => "FRAME_NOT_FOUND".toList
  | .frameTruncated => "FRAME_TRUNCATED".toList
  | .checksumMismatch => "CHECKSUM_MISMATCH".toList
  | .invalidResponseLength => "INVALID_RESPONSE_LENGTH".toList
  | .temperatureCrcInvalid => "TEMPERATURE_CRC_INVALID".toList
  | .humidityCrcInvalid => "HUMIDITY_CRC_INVALID".toList
  | .illegalRequest => "ILLEGAL_REQUEST".toList

/-- A payload's text. -/
def payloadText : Payload → List Char
  | .none => "none".toList
  | .pmSample p =>
    "W = [".toList ++ (", ".toList).intercalate (p.w.toList.map wordText) ++ [']']
  | .co2Value v => (toString v.toNat).toList
  | .thermalSample t h =>
    "T = 0x".toList ++ hexText 8 t.toNat ++ ", H = 0x".toList ++ hexText 8 h.toNat
  | .word16 r => wordText r
  | .bytes bs => bracketed bs

/-- `-> STATUS payload` (R68). -/
def responseText (r : Response) : List Char :=
  "-> ".toList ++ statusText r.status ++ ' ' :: payloadText r.payload

end Sys2Proof.Machine
end

