-- ==== Sys2Proof/Safety.lean ====
section
/-! DEFINITION. The terms the statements use: what a well-formed machine state is, which responses an operation may give (30_encoding.md R70 to R72), where a PM frame stands in a buffer, and what one unit has seen so far. -/

namespace Sys2Proof.Machine

/-! Requests and where they stand. -/

/-- The request names unit `u` (R62) and its byte count fits the 8-bit `len` field (R60). -/
def Addresses (r : Request) (u : UnitId) : Prop := r.unit = some u ∧ r.buf.length ≤ 255

/-- A machine state as the spec describes one: the command table is the built one (R31), every unit holds and waits on requests of its own (R24, R62), and every request the host will issue has a request word (R60). -/
structure State.Wired (s : State) : Prop where
  table    : s.cmd = CmdTable.built
  held     : ∀ u r, s.ustate.get u = .busy r → Addresses r u
  waits    : ∀ u r, r ∈ s.waiting.get u → Addresses r u
  schedule : ∀ r, Event.host r ∈ s.schedule → r.buf.length ≤ 255

/-! Which response fits which operation. -/

/-- The operations of R62 that may produce a status (R70). -/
def Status.producedBy (st : Status) (i : Instr) : Prop :=
  match st with
  | .ok => True
  | .illegalRequest => True
  | .frameNotFound => i.op = 0
  | .frameTruncated => i.op = 0
  | .checksumMismatch => i.op = 0
  | .invalidResponseLength => i.op = 1
  | .temperatureCrcInvalid => i.op = 2
  | .humidityCrcInvalid => i.op = 2

/-- The payload column of R72 for status OK. -/
def Payload.successOf (p : Payload) (i : Instr) : Prop :=
  match i with
  | .pmDecode _ _ => ∃ w, p = .pmSample w
  | .co2Decode _ _ => ∃ v, p = .co2Value v
  | .thDecode _ _ => ∃ t h, p = .thermalSample t h
  | .cmdFrame arg _ => ∃ bs, CmdTable.built.entry arg.toNat = some bs ∧ p = .bytes bs
  | .be16 _ _ => ∃ r, p = .word16 r
  | .sum16 _ _ => ∃ r, p = .word16 r
  | .crc8 _ _ => ∃ r, p = .word16 r

/-- The payload column of R72 for any other status. -/
def errorPayload : Instr → Payload
  | .co2Decode _ _ => .co2Value 0
  | .pmDecode _ _ => .none
  | .thDecode _ _ => .none
  | .cmdFrame _ _ => .none
  | .be16 _ _ => .none
  | .sum16 _ _ => .none
  | .crc8 _ _ => .none

/-- The response is one that R70 and R72 give the operation. -/
def Response.Fits (resp : Response) (i : Instr) : Prop :=
  resp.status.producedBy i ∧
    (resp.status = .ok → resp.payload.successOf i) ∧
    (resp.status ≠ .ok → resp.payload = errorPayload i)

/-- A delivered response fits the operation its request names (R72); a reserved `op` is ILLEGAL_REQUEST with no payload (R65). -/
def Delivery.Fits (d : Delivery) : Prop :=
  match decodeRequest d.req with
  | .ok i => d.resp.Fits i
  | .error _ => d.resp = ⟨.illegalRequest, .none⟩

/-- Every response delivered so far fits its request, and stands in the list of the unit that its request names (R24, R62, R65, R72). -/
structure State.AnswersFit (s : State) : Prop where
  units     : ∀ u d, d ∈ s.delivered.get u → d.req.unit = some u ∧ d.Fits
  interface : ∀ d, d ∈ s.ifaceDelivered → d.req.unit = none ∧ d.Fits

/-! PM frames (R75, R121). -/

/-- `buf[i], buf[i+1]` is the sync marker `42 4D`. -/
def MarkerAt (buf : List Byte) (i : Nat) : Prop := buf[i]? = some 0x42 ∧ buf[i + 1]? = some 0x4D

/-- `i` is the lowest position that holds the marker (R128). -/
def FirstMarker (buf : List Byte) (i : Nat) : Prop := MarkerAt buf i ∧ ∀ j, j < i → ¬ MarkerAt buf j

/-- The big-endian word at `k, k+1` (R43), for `k + 1` below the length. -/
def wordAt (buf : List Byte) (k : Nat) : Word16 := be16 (buf.getD k 0) (buf.getD (k + 1) 0)

/-- The sum of the 30 bytes from `i` on (R124). -/
def frameSum (buf : List Byte) (i : Nat) : Word16 := sum16 ((buf.drop i).take 30)

/-- The sample is that of a valid frame in the buffer: its first marker is at `i`, 32 bytes stand from there, the words are the big-endian readings and the checksum word is the sum (R27, R124, R126). -/
def PmSample.ValidIn (p : PmSample) (buf : List Byte) : Prop :=
  ∃ i, FirstMarker buf i ∧ i + 32 ≤ buf.length ∧
    (∀ j : Fin 15, p.w[j] = wordAt buf (i + 2 + 2 * j.val)) ∧ p.checksum = frameSum buf i

/-- Every PM sample delivered so far is that of a valid frame in its own request's buffer. -/
def State.SamplesValid (s : State) : Prop :=
  ∀ u d p, d ∈ s.delivered.get u → d.resp.payload = .pmSample p → p.ValidIn d.req.buf

/-! Error patterns of the CRC-8 (R107) and binary32 values (R179). -/

/-- The two bytes of a 2-byte data group. -/
def groupBytes (d : Word16) : List Byte := [d.extractLsb' 8 8, d.extractLsb' 0 8]

/-- The error pattern `e` leaves the CRC-8 of every 2-byte group as it was. -/
def Undetected (e : Word16) : Prop := ∀ d : Word16, crc8 (groupBytes (d ^^^ e)) = crc8 (groupBytes d)

/-- How many bits of `e` are set. -/
def setBits (e : Word16) : Nat := ((List.range 16).filter fun k => e.getLsbD k).length

/-- The signed numerator of a value. -/
def Fp.signed (x : Fp) : Int := if x.neg then -(x.num : Int) else x.num

/-- The value of `x` is less than that of `y`; denominators are positive. -/
def Fp.Less (x y : Fp) : Prop := x.signed * y.den < y.signed * x.den

/-! What a unit has seen. -/

/-- The request a unit is serving, if any. -/
def UState.request : UState → List Request
  | .idle => []
  | .busy r => [r]

/-- All requests presented to unit `u` that it has not dropped, in the order it takes them: answered, being served, waiting (R53). -/
def State.history (s : State) (u : UnitId) : List Request :=
  (s.delivered.get u).map (·.req) ++ (s.ustate.get u).request ++ s.waiting.get u

/-- One unit's part of the state (R25). -/
structure UnitView where
  ustate    : UState
  waiting   : List Request
  delivered : List Delivery
deriving DecidableEq, Repr

def State.view (s : State) (u : UnitId) : UnitView := ⟨s.ustate.get u, s.waiting.get u, s.delivered.get u⟩

/-- The event is about unit `u`: a move of `u`, a request to `u`, or reset. -/
def Event.concerns (u : UnitId) : Event → Bool
  | .host r => decide (r.unit = some u)
  | .unit v => decide (v = u)
  | .reset => true

/-- The moves a unit still owes when the host issues nothing more: two for each waiting request (accept, answer), one for one being served. -/
def State.workOf (s : State) (u : UnitId) : Nat := 2 * (s.waiting.get u).length + (s.ustate.get u).request.length

/-- The moves all units owe. -/
def State.work (s : State) : Nat :=
  s.workOf .primu + s.workOf .pmu + s.workOf .co2u + s.workOf .thu + s.workOf .cmdu

end Sys2Proof.Machine
end

