-- ==== Sys2Proof/Certificates/Slice0/Obligations.lean ====
section
/-! DEFINITION. The statements about the model, each with the rule of spec/ it formalises. -/

open Sys2Proof Sys2Proof.Machine

/-! Encoding. -/

/-- R60, R61, R67: the encoded word and bytes of any request whose byte count fits `len` decode back to it, and the bytes after it are left over. -/
def Obligations.EncodedRequestsDecodeBack : Prop :=
  ∀ (i : Instr) (rest : List Byte), i.buf.length ≤ 255 →
    decode (encode i).1 ((encode i).2 ++ rest) = .ok (i, rest)

/-- R60, R67: what the decoder accepts is the encoding of what it answers, so each request has one word and one byte sequence. -/
def Obligations.DecodedRequestsEncodeBack : Prop :=
  ∀ (w : Word16) (bytes rest : List Byte) (i : Instr), decode w bytes = .ok (i, rest) →
    (encode i).1 = w ∧ (encode i).2 ++ rest = bytes

/-- R62, R101, R170, R191 and 95_test_vectors.md: request words written out bit by bit from `LLLLLLLLAAAAOOOO` (R60) decode to their operations. -/
def Obligations.SampleRequestWordsDecode : Prop :=
  decode 0b0000000000000000 [] = .ok (.pmDecode 0 [], []) ∧
  decode 0b0000001000000000 [0x42, 0x4D] = .ok (.pmDecode 0 [0x42, 0x4D], []) ∧
  decode 0b0000000000000001 [] = .ok (.co2Decode 0 [], []) ∧
  decode 0b0000011000000010 [1, 2, 3, 4, 5, 6] = .ok (.thDecode 0 [1, 2, 3, 4, 5, 6], []) ∧
  decode 0b0000000000110011 [] = .ok (.cmdFrame 3 [], []) ∧
  decode 0b0000001000000100 [0x00, 0x1C] = .ok (.be16 0 [0x00, 0x1C], []) ∧
  decode 0b0000000100000101 [7] = .ok (.sum16 0 [7], []) ∧
  decode 0b0000001000000110 [0xBE, 0xEF] = .ok (.crc8 0 [0xBE, 0xEF], []) ∧
  decode 0b0000000000000111 [] = .error (.reservedOp 7)

/-- R81: at most one row of the legality table matches a request word. A word that matches one is that operation's and legal; a word that matches none is illegal: its `op` is reserved, or the operation it names is not well-formed. -/
def Obligations.LegalityTableDecidesLegality : Prop :=
  ∀ (w : Word16) (data : List Byte), data.length = wordLen w →
    (legalityTable.filter (·.matches w)).length ≤ 1 ∧
    (∀ row, row ∈ legalityTable → row.matches w = true →
      ∃ i, decode w data = .ok (i, []) ∧ i.mnemonic = row.mnemonic ∧ i.wellFormed = true) ∧
    ((∀ row, row ∈ legalityTable → row.matches w = false) →
      (7 ≤ (wordOp w).toNat ∧ decode w data = .error (.reservedOp (wordOp w))) ∨
      ∃ i, decode w data = .ok (i, []) ∧ i.wellFormed = false)

/-- R65: a request with a reserved `op` is answered ILLEGAL_REQUEST by the interface; it occupies no unit and changes no interface state, nor anything else. -/
def Obligations.ReservedOpIsAnsweredByTheInterface : Prop :=
  ∀ (s : State) (r : Request) (rest : List Event), 7 ≤ r.op.toNat → s.schedule = .host r :: rest →
    ∃ t, step s = .next t ∧
      t.ifaceDelivered = s.ifaceDelivered ++ [⟨r, ⟨.illegalRequest, .none⟩⟩] ∧
      t.ustate = s.ustate ∧ t.waiting = s.waiting ∧ t.delivered = s.delivered ∧ t.cmd = s.cmd ∧ t.schedule = rest

/-- R65, R66, R72: a request with a legal `op` whose row of R81 does not match is answered ILLEGAL_REQUEST by its unit, with no payload but `Co2Value 0` for CO2_DECODE, whatever its bytes are. -/
def Obligations.IllegalRequestsAreAnsweredByTheirUnit : Prop :=
  ∀ (i : Instr) (s : State), i.wellFormed = false →
    exec i s = .next (s.deliver i.unit i.toRequest ⟨.illegalRequest, errorPayload i⟩)

/-- R70: the status codes are 0 to 7, each of one status, and codes 8 to 15 are no status. -/
def Obligations.StatusCodesAreTheTable : Prop :=
  (∀ st : Status, Status.ofCode st.code = some st ∧ st.code.toNat ≤ 7) ∧
  (∀ c : Nibble, 8 ≤ c.toNat → Status.ofCode c = none) ∧
  Status.ok.code = 0 ∧ Status.frameNotFound.code = 1 ∧ Status.frameTruncated.code = 2 ∧
  Status.checksumMismatch.code = 3 ∧ Status.invalidResponseLength.code = 4 ∧
  Status.temperatureCrcInvalid.code = 5 ∧ Status.humidityCrcInvalid.code = 6 ∧ Status.illegalRequest.code = 7

/-! Primitive functions. -/

/-- R100: `BE16(hi, lo)` is `(hi << 8) | lo`, which equals `256 * hi + lo`; `hi` is bits [15:8] and `lo` bits [7:0]; it is injective. -/
def Obligations.Be16FunctionIsTheBigEndianWord : Prop :=
  (∀ hi lo : Byte, (be16 hi lo).toNat = 256 * hi.toNat + lo.toNat ∧
    be16 hi lo = (hi.setWidth 16 <<< 8) ||| lo.setWidth 16 ∧
    (be16 hi lo).extractLsb' 8 8 = hi ∧ (be16 hi lo).extractLsb' 0 8 = lo) ∧
  (∀ hi lo hi' lo' : Byte, be16 hi lo = be16 hi' lo' → hi = hi' ∧ lo = lo')

/-- R102: `SUM16` starts from 0, adds each byte mod 2^16, and so is the sum of the bytes mod 2^16. -/
def Obligations.Sum16FunctionIsTheSumOfTheBytes : Prop :=
  sum16 [] = 0 ∧
  (∀ (seq : List Byte) (b : Byte), (sum16 (seq ++ [b])).toNat = ((sum16 seq).toNat + b.toNat) % 2 ^ 16) ∧
  (∀ seq : List Byte, (sum16 seq).toNat = (seq.map (·.toNat)).sum % 2 ^ 16)

/-- R104, the four laws of `SUM16`: up to 257 bytes it never wraps, and a valid PM checksum is at most 0x1DE2; order does not matter; one changed byte changes the result by the difference, so always; two changes that cancel, and a swap of two bytes, leave it. -/
def Obligations.Sum16LawsHold : Prop :=
  (∀ seq : List Byte, seq.length ≤ 257 → (sum16 seq).toNat = (seq.map (·.toNat)).sum) ∧
  (∀ (buf : List Byte) (i : Nat), (frameSum buf i).toNat ≤ 0x1DE2) ∧
  (∀ seq seq' : List Byte, seq.Perm seq' → sum16 seq = sum16 seq') ∧
  (∀ (pre post : List Byte) (x y : Byte), (pre ++ x :: post).length ≤ 257 → x ≠ y →
    sum16 (pre ++ y :: post) = sum16 (pre ++ x :: post) + (zext16 y - zext16 x) ∧
    sum16 (pre ++ y :: post) ≠ sum16 (pre ++ x :: post)) ∧
  (∀ (a b c : List Byte) (x y x' y' : Byte), x.toNat + y.toNat = x'.toNat + y'.toNat →
    sum16 (a ++ x :: b ++ y :: c) = sum16 (a ++ x' :: b ++ y' :: c)) ∧
  (∀ (a b c : List Byte) (x y : Byte), sum16 (a ++ x :: b ++ y :: c) = sum16 (a ++ y :: b ++ x :: c))

/-- R105: `CRC8` starts from 0xFF; each byte is XORed in and then eight times the register is shifted left, XORed with 0x31 when bit 7 was set. -/
def Obligations.Crc8FunctionIsTheBitSerialLoop : Prop :=
  crc8 [] = 0xFF ∧
  ∀ (seq : List Byte) (b : Byte), crc8 (seq ++ [b]) =
    (fun c : Byte => if c.getLsbD 7 then (c <<< 1) ^^^ 0x31 else c <<< 1)^[8] (crc8 seq ^^^ b)

/-- R107: the result depends on the bytes alone; the residue of a sequence followed by its CRC is 0; over 2-byte groups an error's effect depends on the error alone, it is detected when it lies within one byte or has at most 3 set bits, exactly 255 nonzero errors are not, all of them with at least 4 set bits, and the first two are 0x0131 and 0x0262. -/
def Obligations.Crc8LawsHold : Prop :=
  (∀ seq seq' : List Byte, seq = seq' → crc8 seq = crc8 seq') ∧
  (∀ seq : List Byte, crc8 (seq ++ [crc8 seq]) = 0) ∧
  (∀ d d' e : Word16, crc8 (groupBytes (d ^^^ e)) ^^^ crc8 (groupBytes d) =
    crc8 (groupBytes (d' ^^^ e)) ^^^ crc8 (groupBytes d')) ∧
  (∀ e : Word16, e ≠ 0 → (e &&& 0xFF00 = 0 ∨ e &&& 0x00FF = 0 ∨ setBits e ≤ 3) →
    ∀ d : Word16, crc8 (groupBytes (d ^^^ e)) ≠ crc8 (groupBytes d)) ∧
  (∃ es : List Word16, es.Nodup ∧ es.length = 255 ∧ ∀ e, e ∈ es ↔ e ≠ 0 ∧ Undetected e) ∧
  (∀ e : Word16, e ≠ 0 → Undetected e → 4 ≤ setBits e) ∧
  Undetected 0x0131 ∧ Undetected 0x0262 ∧
  (∀ e : Word16, e ≠ 0 → Undetected e → e.toNat < 0x0262 → e = 0x0131)

/-! The primitive unit's operations. -/

/-- R101: BE16 with `arg = 0` and two bytes is OK with their big-endian word; every other form is ILLEGAL_REQUEST. -/
def Obligations.Be16RequestAnswersTheWord : Prop :=
  (∀ (hi lo : Byte) (s : State), (encode (.be16 0 [hi, lo])).1 = 0x0204 ∧
    exec (.be16 0 [hi, lo]) s = .next (s.deliver .primu ⟨4, 0, [hi, lo]⟩ ⟨.ok, .word16 (be16 hi lo)⟩)) ∧
  (∀ (arg : Nibble) (buf : List Byte) (s : State), ¬ (arg = 0 ∧ buf.length = 2) →
    exec (.be16 arg buf) s = .next (s.deliver .primu ⟨4, arg, buf⟩ ⟨.illegalRequest, .none⟩)) ∧
  be16 0x00 0x00 = 0x0000 ∧ be16 0xFF 0xFF = 0xFFFF ∧ be16 0x00 0xFF = 0x00FF ∧ be16 0xFF 0x00 = 0xFF00

/-- R103: SUM16 with `arg = 0` and at most 128 bytes is OK with their sum; every other form is ILLEGAL_REQUEST. No bytes give 0, 128 bytes FF give 0x7F80, and no legal request wraps. -/
def Obligations.Sum16RequestAnswersTheSum : Prop :=
  (∀ (buf : List Byte) (s : State), buf.length ≤ 128 →
    (encode (.sum16 0 buf)).1 = BitVec.ofNat 16 (256 * buf.length + 5) ∧
    exec (.sum16 0 buf) s = .next (s.deliver .primu ⟨5, 0, buf⟩ ⟨.ok, .word16 (sum16 buf)⟩) ∧
    (sum16 buf).toNat = (buf.map (·.toNat)).sum) ∧
  (∀ (arg : Nibble) (buf : List Byte) (s : State), ¬ (arg = 0 ∧ buf.length ≤ 128) →
    exec (.sum16 arg buf) s = .next (s.deliver .primu ⟨5, arg, buf⟩ ⟨.illegalRequest, .none⟩)) ∧
  sum16 [] = 0x0000 ∧ sum16 (List.replicate 128 0xFF) = 0x7F80

/-- R106: CRC8 with `arg = 0` and at most 128 bytes is OK with their CRC-8, zero-extended; every other form is ILLEGAL_REQUEST. The corner cases are the rule's. -/
def Obligations.Crc8RequestAnswersTheCrc : Prop :=
  (∀ (buf : List Byte) (s : State), buf.length ≤ 128 →
    (encode (.crc8 0 buf)).1 = BitVec.ofNat 16 (256 * buf.length + 6) ∧
    exec (.crc8 0 buf) s = .next (s.deliver .primu ⟨6, 0, buf⟩ ⟨.ok, .word16 ((crc8 buf).setWidth 16)⟩)) ∧
  (∀ (arg : Nibble) (buf : List Byte) (s : State), ¬ (arg = 0 ∧ buf.length ≤ 128) →
    exec (.crc8 arg buf) s = .next (s.deliver .primu ⟨6, arg, buf⟩ ⟨.illegalRequest, .none⟩)) ∧
  crc8 [] = 0xFF ∧ crc8 [0x00] = 0xAC ∧ crc8 [0xFF] = 0x00 ∧ crc8 [0x00, 0x00] = 0x81 ∧ crc8 [0xFF, 0xFF] = 0xAC

/-! The particulate-matter unit. -/

/-- R122: no sync marker at any position, which includes every buffer of fewer than 2 bytes, is FRAME_NOT_FOUND with no payload. -/
def Obligations.PmWithoutMarkerIsFrameNotFound : Prop :=
  (∀ (buf : List Byte) (s : State), buf.length ≤ 128 → (∀ i, ¬ MarkerAt buf i) →
    exec (.pmDecode 0 buf) s = .next (s.deliver .pmu ⟨0, 0, buf⟩ ⟨.frameNotFound, .none⟩)) ∧
  (∀ (buf : List Byte) (s : State), buf.length < 2 →
    exec (.pmDecode 0 buf) s = .next (s.deliver .pmu ⟨0, 0, buf⟩ ⟨.frameNotFound, .none⟩))

/-- R123: the first marker with fewer than 32 bytes from it to the end is FRAME_TRUNCATED with no payload. -/
def Obligations.PmShortFrameIsFrameTruncated : Prop :=
  ∀ (buf : List Byte) (i : Nat) (s : State), buf.length ≤ 128 → FirstMarker buf i → buf.length - i < 32 →
    exec (.pmDecode 0 buf) s = .next (s.deliver .pmu ⟨0, 0, buf⟩ ⟨.frameTruncated, .none⟩)

/-- R124, R126: the first marker with 32 bytes from it and a checksum word equal to the sum of the 30 bytes from it is OK with the 15 big-endian words. -/
def Obligations.PmValidFrameAnswersItsWords : Prop :=
  ∀ (buf : List Byte) (i : Nat) (s : State), buf.length ≤ 128 → FirstMarker buf i → 32 ≤ buf.length - i →
    frameSum buf i = wordAt buf (i + 30) →
    ∃ p : PmSample, (∀ j : Fin 15, p.w[j] = wordAt buf (i + 2 + 2 * j.val)) ∧
      exec (.pmDecode 0 buf) s = .next (s.deliver .pmu ⟨0, 0, buf⟩ ⟨.ok, .pmSample p⟩)

/-- R125: a checksum word that differs from the sum is CHECKSUM_MISMATCH with no payload. -/
def Obligations.PmWrongSumIsChecksumMismatch : Prop :=
  ∀ (buf : List Byte) (i : Nat) (s : State), buf.length ≤ 128 → FirstMarker buf i → 32 ≤ buf.length - i →
    frameSum buf i ≠ wordAt buf (i + 30) →
    exec (.pmDecode 0 buf) s = .next (s.deliver .pmu ⟨0, 0, buf⟩ ⟨.checksumMismatch, .none⟩)

/-- R128, R131: the first match decides, and no byte after its 32 bytes is looked at: two buffers that agree up to there get the same response. -/
def Obligations.PmFirstMatchDecides : Prop :=
  ∀ (buf buf' : List Byte) (i : Nat) (s : State), buf.length ≤ 128 → buf'.length ≤ 128 →
    FirstMarker buf i → i + 32 ≤ buf.length → i + 32 ≤ buf'.length → buf.take (i + 32) = buf'.take (i + 32) →
    ∃ resp, exec (.pmDecode 0 buf) s = .next (s.deliver .pmu ⟨0, 0, buf⟩ resp) ∧
      exec (.pmDecode 0 buf') s = .next (s.deliver .pmu ⟨0, 0, buf'⟩ resp)

/-- R129: a buffer of fewer than 32 bytes is FRAME_TRUNCATED exactly when some position holds the marker, and FRAME_NOT_FOUND otherwise. -/
def Obligations.PmShortBuffersNeverGiveASample : Prop :=
  ∀ (buf : List Byte) (s : State), buf.length < 32 →
    ∃ st, exec (.pmDecode 0 buf) s = .next (s.deliver .pmu ⟨0, 0, buf⟩ ⟨st, .none⟩) ∧
      (st = .frameNotFound ∨ st = .frameTruncated) ∧ (st = .frameTruncated ↔ ∃ i, MarkerAt buf i)

/-- R133: change one byte of a valid frame at offset 2 to 31 and the result is CHECKSUM_MISMATCH. -/
def Obligations.PmSingleByteChangeIsCaught : Prop :=
  ∀ (buf : List Byte) (i k : Nat) (b : Byte) (s : State), buf.length ≤ 128 → FirstMarker buf i →
    i + 32 ≤ buf.length → frameSum buf i = wordAt buf (i + 30) → 2 ≤ k → k ≤ 31 → b ≠ buf.getD (i + k) 0 →
    exec (.pmDecode 0 (buf.set (i + k) b)) s =
      .next (s.deliver .pmu ⟨0, 0, buf.set (i + k) b⟩ ⟨.checksumMismatch, .none⟩)

/-! The CO2 unit. -/

/-- R152, R153: 7 bytes are OK with `256 * r[3] + r[4]` in 32 bits; any other legal length is INVALID_RESPONSE_LENGTH with value 0. -/
def Obligations.Co2RequestAnswersTheConcentration : Prop :=
  (∀ (r0 r1 r2 r3 r4 r5 r6 : Byte) (s : State),
    exec (.co2Decode 0 [r0, r1, r2, r3, r4, r5, r6]) s =
      .next (s.deliver .co2u ⟨1, 0, [r0, r1, r2, r3, r4, r5, r6]⟩
        ⟨.ok, .co2Value (BitVec.ofNat 32 (256 * r3.toNat + r4.toNat))⟩)) ∧
  (∀ (buf : List Byte) (s : State), buf.length ≤ 128 → buf.length ≠ 7 →
    exec (.co2Decode 0 buf) s = .next (s.deliver .co2u ⟨1, 0, buf⟩ ⟨.invalidResponseLength, .co2Value 0⟩))

/-- R155: the result depends on the length and on bytes 3 and 4 alone; on OK bits [31:16] are zero, and every other status carries 0, for every form of the request. -/
def Obligations.Co2ResultDependsOnLengthAndTwoBytes : Prop :=
  (∀ (buf buf' : List Byte) (s : State), buf.length = buf'.length →
    buf[3]? = buf'[3]? → buf[4]? = buf'[4]? →
    ∃ resp, exec (.co2Decode 0 buf) s = .next (s.deliver .co2u ⟨1, 0, buf⟩ resp) ∧
      exec (.co2Decode 0 buf') s = .next (s.deliver .co2u ⟨1, 0, buf'⟩ resp)) ∧
  (∀ (arg : Nibble) (buf : List Byte) (s : State), ∃ st v,
    exec (.co2Decode arg buf) s = .next (s.deliver .co2u ⟨1, arg, buf⟩ ⟨st, .co2Value v⟩) ∧
      v.toNat ≤ 65535 ∧ (st ≠ .ok → v = 0))

/-! The thermal unit. -/

/-- R172, R173: the temperature group's CRC is checked first, then the humidity group's; the first mismatch ends the operation with no payload. -/
def Obligations.ThermalCrcFailuresEndTheOperation : Prop :=
  ∀ (b0 b1 b2 b3 b4 b5 : Byte) (s : State),
    (crc8 [b0, b1] ≠ b2 →
      exec (.thDecode 0 [b0, b1, b2, b3, b4, b5]) s =
        .next (s.deliver .thu ⟨2, 0, [b0, b1, b2, b3, b4, b5]⟩ ⟨.temperatureCrcInvalid, .none⟩)) ∧
    (crc8 [b0, b1] = b2 → crc8 [b3, b4] ≠ b5 →
      exec (.thDecode 0 [b0, b1, b2, b3, b4, b5]) s =
        .next (s.deliver .thu ⟨2, 0, [b0, b1, b2, b3, b4, b5]⟩ ⟨.humidityCrcInvalid, .none⟩))

/-- R9, R170, R174 to R176, R180: the build's THERMAL_PRECISION is BINARY64 (R9's value; log 9), and with both CRCs good the sample is `CONV_T` and `CONV_H` of the two big-endian raw codes, whatever they are. -/
def Obligations.ThermalRequestAnswersTheSample : Prop :=
  Config.thermalPrecision = .binary64 ∧
  ∀ (b0 b1 b3 b4 : Byte) (s : State),
    exec (.thDecode 0 [b0, b1, crc8 [b0, b1], b3, b4, crc8 [b3, b4]]) s =
      .next (s.deliver .thu ⟨2, 0, [b0, b1, crc8 [b0, b1], b3, b4, crc8 [b3, b4]]⟩
        ⟨.ok, .thermalSample (convT .binary64 (be16 b0 b1)) (convH .binary64 (be16 b3 b4))⟩)

/-- R14, R175 to R177: one rounding of a positive fraction to binary32 or binary64 keeps the sign and gives `M` units in a last place, `M` within the significand's bits, no other number of units nearer, and an even `M` when two are equally near. -/
def Obligations.RoundingIsNearestTiesToEven : Prop :=
  ∀ (f : FpFormat) (neg : Bool) (num den : Nat), (f = .binary32 ∨ f = .binary64) → 0 < num → 0 < den →
    ∃ m up down : Nat, roundFrac f neg num den = ⟨neg, m * 2 ^ down, 2 ^ up⟩ ∧
      (up = 0 ∨ down = 0) ∧ up ≤ f.maxScale ∧ m ≤ 2 ^ f.prec ∧ (2 ^ (f.prec - 1) ≤ m ∨ up = f.maxScale) ∧
      ∀ n : Nat, n ≠ m →
        |(m * (den * 2 ^ down) : Int) - num * 2 ^ up| ≤ |(n * (den * 2 ^ down) : Int) - num * 2 ^ up| ∧
        (|(m * (den * 2 ^ down) : Int) - num * 2 ^ up| = |(n * (den * 2 ^ down) : Int) - num * 2 ^ up| → m % 2 = 0)

/-- R178: under BINARY64, for every raw code, each conversion is the exact rational `175 * raw / 65535 - 45`, or `100 * raw / 65535`, rounded once to binary32. -/
def Obligations.ThermalConversionsAreExactlyRounded : Prop :=
  ∀ raw : Word16,
    convT .binary64 raw =
      (roundFrac .binary32 (decide (175 * raw.toNat < 45 * 65535))
        ((175 * raw.toNat : Int) - 45 * 65535).natAbs 65535).pack32 ∧
    convH .binary64 raw = (roundFrac .binary32 false (100 * raw.toNat) 65535).pack32

/-- R179: under BINARY64, both conversions are strictly increasing, from -45.0 to 130.0 and from +0.0 to 100.0; no result is a NaN, an infinity, a subnormal or -0.0, and the temperature is never zero. -/
def Obligations.ThermalConversionsIncreaseWithinRange : Prop :=
  (∀ a b : Word16, a.toNat < b.toNat →
    (fp32Value (convT .binary64 a)).Less (fp32Value (convT .binary64 b)) ∧
    (fp32Value (convH .binary64 a)).Less (fp32Value (convH .binary64 b))) ∧
  convT .binary64 0 = 0xC2340000 ∧ convT .binary64 0xFFFF = 0x43020000 ∧
  convH .binary64 0 = 0x00000000 ∧ convH .binary64 0xFFFF = 0x42C80000 ∧
  (∀ raw : Word16,
    1 ≤ ((convT .binary64 raw).extractLsb' 23 8).toNat ∧ ((convT .binary64 raw).extractLsb' 23 8).toNat ≤ 254 ∧
    ((convH .binary64 raw = 0 ∧ raw = 0) ∨
      (1 ≤ ((convH .binary64 raw).extractLsb' 23 8).toNat ∧ ((convH .binary64 raw).extractLsb' 23 8).toNat ≤ 254)))

/-- R177, its temperature part: the two precisions agree for every code below 327 and differ at 327 and at 0xBEEF, with the values the rule and vector L2-TH-10 give. -/
def Obligations.PrecisionsFirstDifferAtCode327 : Prop :=
  (∀ raw : Word16, raw.toNat < 327 → convT .binary32 raw = convT .binary64 raw) ∧
  convT .binary64 327 = 0xC23081D9 ∧ convT .binary32 327 = 0xC23081D8 ∧
  convT .binary64 0xBEEF = 0x42AB0BC7 ∧ convT .binary32 0xBEEF = 0x42AB0BC8

/-- R177, its humidity part: `CONV_H32` equals `CONV_H` for every raw code. -/
def Obligations.PrecisionsAgreeOnHumidity : Prop :=
  ∀ raw : Word16, convH .binary32 raw = convH .binary64 raw

/-! The command unit. -/

/-- R190, R191: each selector answers its frame, byte for byte; selectors 4 to 15 and requests with data bytes are ILLEGAL_REQUEST. -/
def Obligations.CommandFramesAreTheTable : Prop :=
  (∀ s : State, s.cmd = CmdTable.built →
    exec (.cmdFrame 0 []) s =
      .next (s.deliver .cmdu ⟨3, 0, []⟩ ⟨.ok, .bytes [0x42, 0x4D, 0xE4, 0x00, 0x00, 0x01, 0x73]⟩) ∧
    exec (.cmdFrame 1 []) s =
      .next (s.deliver .cmdu ⟨3, 1, []⟩ ⟨.ok, .bytes [0x42, 0x4D, 0xE4, 0x00, 0x01, 0x01, 0x74]⟩) ∧
    exec (.cmdFrame 2 []) s =
      .next (s.deliver .cmdu ⟨3, 2, []⟩ ⟨.ok, .bytes [0x42, 0x4D, 0xE2, 0x00, 0x00, 0x01, 0x71]⟩) ∧
    exec (.cmdFrame 3 []) s =
      .next (s.deliver .cmdu ⟨3, 3, []⟩ ⟨.ok, .bytes [0xFE, 0x04, 0x00, 0x03, 0x00, 0x01, 0xD5, 0xC5]⟩)) ∧
  (∀ (arg : Nibble) (buf : List Byte) (s : State), 3 < arg.toNat ∨ buf ≠ [] →
    exec (.cmdFrame arg buf) s = .next (s.deliver .cmdu ⟨3, arg, buf⟩ ⟨.illegalRequest, .none⟩)) ∧
  (encode (.cmdFrame 0 [])).1 = 0x0003 ∧ (encode (.cmdFrame 1 [])).1 = 0x0013 ∧
  (encode (.cmdFrame 2 [])).1 = 0x0023 ∧ (encode (.cmdFrame 3 [])).1 = 0x0033

/-- R192: in each of the three PM command frames the last two bytes are the big-endian SUM16 of the first five. -/
def Obligations.PmCommandFramesCarryTheirSum : Prop :=
  ∀ s bs, s ≤ 2 → CmdTable.built.entry s = some bs →
    bs.length = 7 ∧ wordAt bs 5 = sum16 (bs.take 5) ∧
    (s = 0 → sum16 (bs.take 5) = 0x0173) ∧ (s = 1 → sum16 (bs.take 5) = 0x0174) ∧ (s = 2 → sum16 (bs.take 5) = 0x0171)

/-- R68: each pseudo-request is one CMD_FRAME request, with its selector. -/
def Obligations.PseudoRequestsExpandToCommandFrames : Prop :=
  PseudoRequest.pmSleep.expand = .cmdFrame 0 [] ∧ PseudoRequest.pmWake.expand = .cmdFrame 1 [] ∧
  PseudoRequest.pmPassiveRead.expand = .cmdFrame 2 [] ∧ PseudoRequest.co2ReadReq.expand = .cmdFrame 3 [] ∧
  ∀ p : PseudoRequest, p.expand.wellFormed = true

/-! Frames, completion and responses of every operation. -/

/-- R13, R23, R25, R41, R206, R207: an operation that answers frees its own unit and adds one response, beside its request, to that unit's; every other unit, every waiting request, what the interface answered, the command table and the schedule are as before. -/
def Obligations.OperationsChangeOnlyTheirUnit : Prop :=
  ∀ (i : Instr) (s t : State), exec i s = .next t →
    t.ustate.get i.unit = .idle ∧
    (∃ resp, t.delivered.get i.unit = s.delivered.get i.unit ++ [⟨i.toRequest, resp⟩]) ∧
    (∀ v, v ≠ i.unit → t.ustate.get v = s.ustate.get v ∧ t.delivered.get v = s.delivered.get v) ∧
    t.waiting = s.waiting ∧ t.ifaceDelivered = s.ifaceDelivered ∧ t.cmd = s.cmd ∧ t.schedule = s.schedule

/-- R51, R127, R200: every operation, with any argument and any bytes, in any state, answers: no read leaves its address space, and nothing stops. -/
def Obligations.OperationsNeverReadOutOfRange : Prop :=
  ∀ (i : Instr) (s : State), ∃ resp, exec i s = .next (s.deliver i.unit i.toRequest resp)

/-- R200, R235: every step from every state answers a next state: no fault, no refusal. -/
def Obligations.EveryStepAnswers : Prop :=
  ∀ s : State, ∃ t, step s = .next t

/-- R71, R72: the status and payload of every operation's response are the ones the table gives it: the success payload with OK only, `Co2Value 0` on any CO2 error, no payload on any other error, and a status that R70 lets the operation produce. -/
def Obligations.ResponsesFollowThePayloadTable : Prop :=
  ∀ (i : Instr) (s : State), s.cmd = CmdTable.built →
    ∃ resp, exec i s = .next (s.deliver i.unit i.toRequest resp) ∧ resp.Fits i

/-- R3, R23, R231: the response is a function of the request alone: the same request gets the same response in any two states with the same (constant) command table. -/
def Obligations.ResponseIsAFunctionOfTheRequest : Prop :=
  ∀ (i : Instr) (s s' : State), s.cmd = s'.cmd →
    ∃ resp, exec i s = .next (s.deliver i.unit i.toRequest resp) ∧
      exec i s' = .next (s'.deliver i.unit i.toRequest resp)

/-! The machine. -/

/-- R33: after reset every unit is Idle, so no response is pending, and the command table holds R190's frames. -/
def Obligations.ResetStateIsIdle : Prop :=
  (∀ u, State.reset.ustate.get u = .idle) ∧
  State.reset.cmd.entry 0 = some [0x42, 0x4D, 0xE4, 0x00, 0x00, 0x01, 0x73] ∧
  State.reset.cmd.entry 1 = some [0x42, 0x4D, 0xE4, 0x00, 0x01, 0x01, 0x74] ∧
  State.reset.cmd.entry 2 = some [0x42, 0x4D, 0xE2, 0x00, 0x00, 0x01, 0x71] ∧
  State.reset.cmd.entry 3 = some [0xFE, 0x04, 0x00, 0x03, 0x00, 0x01, 0xD5, 0xC5]

/-- R230: reset puts every unit in Idle; a request in flight is dropped with no response; what was delivered stays delivered; the command table is unchanged. The dropped request is not put back among the waiting ones: those, and the rest of the schedule, are as before (that reset leaves them is the model's choice, log 5). -/
def Obligations.ResetEventDropsRequestsInFlight : Prop :=
  ∀ (s : State) (rest : List Event), s.schedule = .reset :: rest →
    ∃ t, step s = .next t ∧ (∀ u, t.ustate.get u = .idle) ∧ t.waiting = s.waiting ∧
      t.delivered = s.delivered ∧ t.ifaceDelivered = s.ifaceDelivered ∧ t.cmd = s.cmd ∧ t.schedule = rest

/-- R21, R60, R208: when the unit that moves is Busy with a request whose word and bytes decode to `i`, the step is `exec i`, on the state whose schedule starts after this move; with nothing scheduled, the first unit with a move is the one that moves (the model's choice, log 2). -/
def Obligations.StepRunsTheHeldRequest : Prop :=
  ∀ (s : State) (u : UnitId) (w : Word16) (data : List Byte) (i : Instr), decode w data = .ok (i, []) →
    s.ustate.get u = .busy ⟨wordOp w, wordArg w, data⟩ →
    (∀ rest, s.schedule = .unit u :: rest → step s = exec i { s with schedule := rest }) ∧
    (s.schedule = [] → s.firstEnabled = some u → step s = exec i s)

/-- Log 6: the very next step after `withFetchWord` runs the operation that `decodeTableWord` reads from the word, in the state whose addressed unit is Busy with it. -/
def Obligations.PlacedWordRunsNext : Prop :=
  ∀ (s : State) (nbits w : Nat) (i : Instr), decodeTableWord nbits w = some i →
    step (s.withFetchWord nbits w) = exec i { s with ustate := s.ustate.set i.unit (.busy i.toRequest) }

/-- R24: an Idle unit accepts one presented request and is Busy with it; a Busy unit delivers exactly one response, by the rule of its request's operation, and is Idle; a request to a Busy unit is held and changes no interface state; and no step changes the command table. That an Idle unit takes the oldest of several presented requests and a held one stands last is the model's choice (log 3), and so is that issuing and routing a request is one step (log 14). -/
def Obligations.UnitsFollowTheIdleBusyCycle : Prop :=
  ∀ (s : State) (u : UnitId), s.Wired →
    (∀ r ws rest, s.schedule = .unit u :: rest → s.ustate.get u = .idle → s.waiting.get u = r :: ws →
      ∃ t, step s = .next t ∧ t.ustate.get u = .busy r ∧ t.waiting.get u = ws ∧
        t.delivered = s.delivered ∧ t.ifaceDelivered = s.ifaceDelivered) ∧
    (∀ r rest, s.schedule = .unit u :: rest → s.ustate.get u = .busy r →
      ∃ t i resp, decodeRequest r = .ok i ∧ exec i { s with schedule := rest } = .next t ∧ step s = .next t ∧
        t.ustate.get u = .idle ∧ t.delivered.get u = s.delivered.get u ++ [⟨r, resp⟩] ∧ t.waiting = s.waiting) ∧
    (∀ r r' rest, s.schedule = .host r :: rest → r.unit = some u → s.ustate.get u = .busy r' →
      ∃ t, step s = .next t ∧ t.ustate = s.ustate ∧ t.waiting.get u = s.waiting.get u ++ [r] ∧
        t.delivered = s.delivered) ∧
    (∀ t, step s = .next t → t.cmd = s.cmd)

/-- R25: a unit's step leaves every other unit's part of the state as it was, and what it does to its own part depends on that part alone. -/
def Obligations.UnitsAreIndependent : Prop :=
  (∀ (s t : State) (u v : UnitId) (rest : List Event), s.Wired → v ≠ u → s.schedule = .unit u :: rest →
    step s = .next t → t.view v = s.view v) ∧
  (∀ (s s' t t' : State) (u : UnitId) (rest rest' : List Event), s.Wired → s'.Wired →
    s.schedule = .unit u :: rest → s'.schedule = .unit u :: rest' → s.view u = s'.view u →
    step s = .next t → step s' = .next t' → t.view u = t'.view u)

/-- R53: moves of two different units may come in either order: both orders end in the same state. -/
def Obligations.DifferentUnitsCommute : Prop :=
  ∀ (s : State) (u v : UnitId) (rest : List Event), s.Wired → u ≠ v → s.schedule = .unit u :: .unit v :: rest →
    ∃ t : State, Host.Core.run Sys2Proof.core 2 s = .next t ∧
      Host.Core.run Sys2Proof.core 2 ({ s with schedule := .unit v :: .unit u :: rest } : State) = .next t

/-- R25, R53: over a whole schedule, what a unit has accepted and answered at the end is what it would have from the events about it alone, so every interleaving with other units gives the same responses. -/
def Obligations.InterleavingDoesNotChangeResponses : Prop :=
  ∀ (s : State) (u : UnitId), s.Wired →
    ∃ t t' : State, Host.Core.run Sys2Proof.core s.schedule.length s = .next t ∧
      Host.Core.run Sys2Proof.core (s.schedule.filter (Event.concerns u)).length
        ({ s with schedule := s.schedule.filter (Event.concerns u) } : State) = .next t' ∧
      t.view u = t'.view u

/-- R24, R53: within one unit requests are answered in the order presented, none lost, none twice: a step leaves the unit's history as it was, a request the host issues to the unit is added at its end, and only reset takes the request in flight out of it. R53 gives the order in which a unit accepts; that requests are accepted in the order presented, none lost, is the model's choice (log 3), and so is that reset leaves the waiting ones (log 5). -/
def Obligations.RequestsAreAnsweredInOrder : Prop :=
  ∀ (s t : State) (u : UnitId), s.Wired → step s = .next t →
    (∀ r rest, s.schedule = .host r :: rest →
      t.history u = s.history u ++ (if r.unit = some u then [r] else [])) ∧
    (∀ rest, s.schedule = .reset :: rest →
      t.history u = (s.delivered.get u).map (·.req) ++ s.waiting.get u) ∧
    (∀ v rest, s.schedule = .unit v :: rest → t.history u = s.history u) ∧
    (s.schedule = [] → t.history u = s.history u)

/-- R230, R234: a delivered response is final: every step, reset included, keeps what was delivered and only adds at the end. -/
def Obligations.DeliveredResponsesAreFinal : Prop :=
  ∀ s t : State, step s = .next t →
    (∀ u, s.delivered.get u <+: t.delivered.get u) ∧ s.ifaceDelivered <+: t.ifaceDelivered

/-- R235: with nothing more scheduled, the units answer every request they hold or that waits for them, in exactly the number of moves they owe (that a unit moves then is the model's form of weak fairness, log 2, and the order of the waiting requests is the model's choice, log 3). -/
def Obligations.OutstandingRequestsAreAllAnswered : Prop :=
  ∀ s : State, s.Wired → s.schedule = [] →
    ∃ t : State, Host.Core.run Sys2Proof.core s.work s = .next t ∧
      ∀ u, t.ustate.get u = .idle ∧ t.waiting.get u = [] ∧ (t.delivered.get u).map (·.req) = s.history u

/-- R24, R31, R60, R62: every step keeps the state wired: the built command table, every unit's requests its own. -/
def Obligations.StepKeepsStateWired : Prop :=
  ∀ s t : State, s.Wired → step s = .next t → t.Wired

/-- R33: the reset state meets the three invariants; that the model's record of the host's side is empty then is the model's choice (log 1, log 3, log 4). -/
def Obligations.ResetStateIsWired : Prop :=
  State.reset.Wired ∧ State.reset.AnswersFit ∧ State.reset.SamplesValid

/-- R65, R71, R72: every step keeps this: every response delivered fits the operation its request names and stands with the unit it names. -/
def Obligations.StepKeepsAnswersFitting : Prop :=
  ∀ s t : State, s.Wired → s.AnswersFit → step s = .next t → t.AnswersFit

/-- R27 (its invariant), R233: every step keeps this: every PM sample delivered is that of a frame in its request's buffer whose checksum word is the sum of its 30 bytes. -/
def Obligations.StepKeepsPmSamplesValid : Prop :=
  ∀ s t : State, s.SamplesValid → step s = .next t → t.SamplesValid
end

