-- ==== Sys2Proof/Laws/State.lean ====
section
/-! SUPPORT. What each update of State leaves in each field, and the laws of a unit's component. -/

namespace Sys2Proof.Machine

variable {α : Type}

@[simp] theorem PerUnit.get_set_same (p : PerUnit α) (u : UnitId) (a : α) : (p.set u a).get u = a := by
  cases u <;> rfl

theorem PerUnit.get_set_other (p : PerUnit α) (a : α) {u v : UnitId} (h : v ≠ u) :
    (p.set u a).get v = p.get v := by
  cases u <;> cases v <;> first | rfl | exact absurd rfl h

theorem PerUnit.get_set (p : PerUnit α) (u v : UnitId) (a : α) :
    (p.set u a).get v = if v = u then a else p.get v := by
  by_cases h : v = u
  · subst h; simp
  · simp [h, PerUnit.get_set_other]

/-- Two components are equal when they agree at every unit. -/
theorem PerUnit.ext_get {p q : PerUnit α} (h : ∀ u, p.get u = q.get u) : p = q := by
  obtain ⟨a, b, c, d, e⟩ := p
  obtain ⟨a', b', c', d', e'⟩ := q
  obtain rfl : a = a' := h .primu
  obtain rfl : b = b' := h .pmu
  obtain rfl : c = c' := h .co2u
  obtain rfl : d = d' := h .thu
  obtain rfl : e = e' := h .cmdu
  rfl

@[simp] theorem PerUnit.get_replicate (a : α) (u : UnitId) : (PerUnit.mk a a a a a).get u = a := by
  cases u <;> rfl

variable (s : State)

@[simp] theorem State.deliver_ustate (u : UnitId) (r : Request) (resp : Response) : (s.deliver u r resp).ustate = s.ustate.set u .idle := rfl
@[simp] theorem State.deliver_waiting (u : UnitId) (r : Request) (resp : Response) : (s.deliver u r resp).waiting = s.waiting := rfl
@[simp] theorem State.deliver_delivered (u : UnitId) (r : Request) (resp : Response) : (s.deliver u r resp).delivered = s.delivered.set u (s.delivered.get u ++ [⟨r, resp⟩]) := rfl
@[simp] theorem State.deliver_ifaceDelivered (u : UnitId) (r : Request) (resp : Response) : (s.deliver u r resp).ifaceDelivered = s.ifaceDelivered := rfl
@[simp] theorem State.deliver_cmd (u : UnitId) (r : Request) (resp : Response) : (s.deliver u r resp).cmd = s.cmd := rfl
@[simp] theorem State.deliver_schedule (u : UnitId) (r : Request) (resp : Response) : (s.deliver u r resp).schedule = s.schedule := rfl

@[simp] theorem State.deliverInterface_ustate (r : Request) (resp : Response) : (s.deliverInterface r resp).ustate = s.ustate := rfl
@[simp] theorem State.deliverInterface_waiting (r : Request) (resp : Response) : (s.deliverInterface r resp).waiting = s.waiting := rfl
@[simp] theorem State.deliverInterface_delivered (r : Request) (resp : Response) : (s.deliverInterface r resp).delivered = s.delivered := rfl
@[simp] theorem State.deliverInterface_ifaceDelivered (r : Request) (resp : Response) : (s.deliverInterface r resp).ifaceDelivered = s.ifaceDelivered ++ [⟨r, resp⟩] := rfl
@[simp] theorem State.deliverInterface_cmd (r : Request) (resp : Response) : (s.deliverInterface r resp).cmd = s.cmd := rfl
@[simp] theorem State.deliverInterface_schedule (r : Request) (resp : Response) : (s.deliverInterface r resp).schedule = s.schedule := rfl

@[simp] theorem State.present_ustate (u : UnitId) (r : Request) : (s.present u r).ustate = s.ustate := rfl
@[simp] theorem State.present_waiting (u : UnitId) (r : Request) : (s.present u r).waiting = s.waiting.set u (s.waiting.get u ++ [r]) := rfl
@[simp] theorem State.present_delivered (u : UnitId) (r : Request) : (s.present u r).delivered = s.delivered := rfl
@[simp] theorem State.present_ifaceDelivered (u : UnitId) (r : Request) : (s.present u r).ifaceDelivered = s.ifaceDelivered := rfl
@[simp] theorem State.present_cmd (u : UnitId) (r : Request) : (s.present u r).cmd = s.cmd := rfl
@[simp] theorem State.present_schedule (u : UnitId) (r : Request) : (s.present u r).schedule = s.schedule := rfl

@[simp] theorem State.accept_ustate (u : UnitId) (r : Request) (rest : List Request) : (s.accept u r rest).ustate = s.ustate.set u (.busy r) := rfl
@[simp] theorem State.accept_waiting (u : UnitId) (r : Request) (rest : List Request) : (s.accept u r rest).waiting = s.waiting.set u rest := rfl
@[simp] theorem State.accept_delivered (u : UnitId) (r : Request) (rest : List Request) : (s.accept u r rest).delivered = s.delivered := rfl
@[simp] theorem State.accept_ifaceDelivered (u : UnitId) (r : Request) (rest : List Request) : (s.accept u r rest).ifaceDelivered = s.ifaceDelivered := rfl
@[simp] theorem State.accept_cmd (u : UnitId) (r : Request) (rest : List Request) : (s.accept u r rest).cmd = s.cmd := rfl
@[simp] theorem State.accept_schedule (u : UnitId) (r : Request) (rest : List Request) : (s.accept u r rest).schedule = s.schedule := rfl

@[simp] theorem State.dropRequest_ustate (u : UnitId) : (s.dropRequest u).ustate = s.ustate.set u .idle := rfl
@[simp] theorem State.dropRequest_waiting (u : UnitId) : (s.dropRequest u).waiting = s.waiting := rfl
@[simp] theorem State.dropRequest_delivered (u : UnitId) : (s.dropRequest u).delivered = s.delivered := rfl
@[simp] theorem State.dropRequest_ifaceDelivered (u : UnitId) : (s.dropRequest u).ifaceDelivered = s.ifaceDelivered := rfl
@[simp] theorem State.dropRequest_cmd (u : UnitId) : (s.dropRequest u).cmd = s.cmd := rfl
@[simp] theorem State.dropRequest_schedule (u : UnitId) : (s.dropRequest u).schedule = s.schedule := rfl

@[simp] theorem State.resetEffect_ustate : (s.resetEffect).ustate = ⟨.idle, .idle, .idle, .idle, .idle⟩ := rfl
@[simp] theorem State.resetEffect_waiting : (s.resetEffect).waiting = s.waiting := rfl
@[simp] theorem State.resetEffect_delivered : (s.resetEffect).delivered = s.delivered := rfl
@[simp] theorem State.resetEffect_ifaceDelivered : (s.resetEffect).ifaceDelivered = s.ifaceDelivered := rfl
@[simp] theorem State.resetEffect_cmd : (s.resetEffect).cmd = s.cmd := rfl
@[simp] theorem State.resetEffect_schedule : (s.resetEffect).schedule = s.schedule := rfl

end Sys2Proof.Machine
end

