-- ==== Sys2Proof/Laws/Ops.lean ====
section
/-! SUPPORT. What the shared operations answer: reads inside and outside the buffer, operand assembly, sums and CRCs, and the shape of a meaning. -/

namespace Sys2Proof.Machine

/-! Reads (20_memory.md R49, R51). -/

theorem readByte_of_lt {buf : List Byte} {k : Nat} (h : k < buf.length) :
    readByte buf k = .ok (buf.getD k 0) := by
  simp [readByte, List.getElem?_eq_getElem h]

/-- A read at or past the end is the fault, and no byte. -/
theorem readByte_of_ge {buf : List Byte} {k : Nat} (h : buf.length ≤ k) :
    readByte buf k = .error (.bufferReadOutOfRange k buf.length) := by
  simp [readByte, List.getElem?_eq_none h]

theorem readRange_of_le {buf : List Byte} {m : Nat} : ∀ {k : Nat}, k + m ≤ buf.length →
    readRange buf k m = .ok ((buf.drop k).take m) := by
  induction m with
  | zero => intro k _; simp [readRange]
  | succ m ih =>
    intro k h
    have hk : k < buf.length := by omega
    have hd : buf.drop k = buf.getD k 0 :: buf.drop (k + 1) := by
      rw [List.drop_eq_getElem_cons hk]; simp [hk]
    rw [readRange, readByte_of_lt hk, ih (by omega), hd]
    rfl

theorem readWord_of_lt {buf : List Byte} {k : Nat} (h : k + 1 < buf.length) :
    readWord buf k = .ok (wordAt buf k) := by
  rw [readWord, readByte_of_lt (by omega : k < buf.length), readByte_of_lt h]
  rfl

/-- The sample that stands in the buffer at `i`, when all of it is there. -/
def sampleAt (buf : List Byte) (i : Nat) : PmSample :=
  ⟨#v[wordAt buf (i + 2), wordAt buf (i + 4), wordAt buf (i + 6), wordAt buf (i + 8), wordAt buf (i + 10),
      wordAt buf (i + 12), wordAt buf (i + 14), wordAt buf (i + 16), wordAt buf (i + 18), wordAt buf (i + 20),
      wordAt buf (i + 22), wordAt buf (i + 24), wordAt buf (i + 26), wordAt buf (i + 28), wordAt buf (i + 30)]⟩

theorem readPmWords_of_le {buf : List Byte} {i : Nat} (h : i + 32 ≤ buf.length) :
    readPmWords buf i = .ok (sampleAt buf i) := by
  have hw : ∀ j, j ≤ 30 → readWord buf (i + j) = .ok (wordAt buf (i + j)) := fun j hj =>
    readWord_of_lt (by omega)
  simp only [readPmWords, hw 2 (by omega), hw 4 (by omega), hw 6 (by omega), hw 8 (by omega), hw 10 (by omega),
    hw 12 (by omega), hw 14 (by omega), hw 16 (by omega), hw 18 (by omega), hw 20 (by omega), hw 22 (by omega),
    hw 24 (by omega), hw 26 (by omega), hw 28 (by omega), hw 30 (by omega)]
  rfl

theorem sampleAt_word (buf : List Byte) (i : Nat) (j : Fin 15) :
    (sampleAt buf i).w[j] = wordAt buf (i + 2 + 2 * j.val) := by
  fin_cases j <;> rfl

@[simp] theorem sampleAt_checksum (buf : List Byte) (i : Nat) :
    (sampleAt buf i).checksum = wordAt buf (i + 30) := rfl

theorem readCmd_of_le (t : CmdTable) {n : Nat} (h : n ≤ 3) : ∃ bs, t.entry n = some bs ∧ readCmd t n = .ok bs := by
  match n, h with
  | 0, _ => exact ⟨_, rfl, rfl⟩
  | 1, _ => exact ⟨_, rfl, rfl⟩
  | 2, _ => exact ⟨_, rfl, rfl⟩
  | 3, _ => exact ⟨_, rfl, rfl⟩

/-! Sums and CRCs (40_primitives.md R102, R105). -/

@[simp] theorem sum16_nil : sum16 [] = 0 := rfl

theorem sum16_append (xs ys : List Byte) : sum16 (xs ++ ys) = sum16 xs + sum16 ys := by
  have h : ∀ (l : List Byte) (a : Word16),
      l.foldl (fun acc b => acc + zext16 b) a = a + l.foldl (fun acc b => acc + zext16 b) 0 := by
    intro l
    induction l with
    | nil => intro a; simp
    | cons b l ih => intro a; rw [List.foldl_cons, List.foldl_cons, ih (a + zext16 b), ih (0 + zext16 b)]; simp [BitVec.add_assoc]
  rw [sum16, List.foldl_append, h]
  rfl

@[simp] theorem sum16_singleton (b : Byte) : sum16 [b] = zext16 b := by simp [sum16]

theorem sum16_cons (b : Byte) (l : List Byte) : sum16 (b :: l) = zext16 b + sum16 l := by
  rw [← List.singleton_append, sum16_append, sum16_singleton]

@[simp] theorem crc8_nil : crc8 [] = Config.crc8Init := rfl

theorem crc8_append_singleton (l : List Byte) (b : Byte) : crc8 (l ++ [b]) = crc8Shift8 (crc8 l ^^^ b) := by
  simp [crc8]

/-- A shift step is linear over XOR. -/
theorem crc8Shift_xor (a b : Byte) : crc8Shift (a ^^^ b) = crc8Shift a ^^^ crc8Shift b := by
  unfold crc8Shift
  rw [BitVec.getLsbD_xor, BitVec.shiftLeft_xor_distrib]
  apply BitVec.eq_of_getLsbD_eq
  intro k _
  cases a.getLsbD 7 <;> cases b.getLsbD 7 <;>
    simp only [Bool.bne_true, Bool.bne_false, Bool.not_true, Bool.not_false, Bool.false_eq_true, if_true, if_false,
      BitVec.getLsbD_xor] <;>
    cases (a <<< 1).getLsbD k <;> cases (b <<< 1).getLsbD k <;> cases Config.crc8Poly.getLsbD k <;> rfl

theorem crc8Shift8_xor (a b : Byte) : crc8Shift8 (a ^^^ b) = crc8Shift8 a ^^^ crc8Shift8 b := by
  simp only [crc8Shift8, crc8Shift_xor]

theorem crc8_pair (a b : Byte) : crc8 [a, b] = crc8Shift8 (crc8Shift8 (Config.crc8Init ^^^ a) ^^^ b) := rfl

/-! The shape of a meaning (30_encoding.md R65, R66). -/

theorem serve_of_illegal {i : Instr} {body : Except Fault Response} {s : State} (h : legal i = false) :
    serve i body s = .next (s.deliver i.unit i.toRequest (illegalResponse i)) := by
  simp [serve, h]

theorem serve_of_legal {i : Instr} {resp : Response} {s : State} (h : legal i = true) :
    serve i (.ok resp) s = .next (s.deliver i.unit i.toRequest resp) := by
  simp [serve, h]

/-- A meaning that answers a next state has delivered one response of its own unit. -/
theorem serve_next {i : Instr} {body : Except Fault Response} {s t : State} (h : serve i body s = .next t) :
    ∃ resp, t = s.deliver i.unit i.toRequest resp := by
  unfold serve at h
  split at h
  · split at h
    · exact ⟨_, (Host.Outcome.next.inj h).symm⟩
    · cases h
  · exact ⟨_, (Host.Outcome.next.inj h).symm⟩

/-- R63 and R64 say of every request what its row of R81 says. -/
theorem legal_eq_wellFormed (i : Instr) : legal i = i.wellFormed := by
  cases i <;> simp only [legal, argLegal, lenLegal, Instr.wellFormed, Config.thLen] <;> rfl

end Sys2Proof.Machine
end

