-- ==== Sys2Proof/Laws/PerInstr.lean ====
section
/-! SUPPORT. Facts about every operation as syntax, one lemma per constructor: the fields of an encoded request word (30_encoding.md R60). -/

namespace Sys2Proof

/-- Bit `k` of a request word, field by field. -/
theorem getLsbD_mkWord (op arg : Nibble) (len k : Nat) :
    (mkWord op arg len).getLsbD k =
      if k < 4 then op.getLsbD k
      else if k - 4 < 4 then arg.getLsbD (k - 4) else (BitVec.ofNat 8 len).getLsbD (k - 4 - 4) := by
  show (BitVec.ofNat 8 len ++ arg ++ op : BitVec (8 + 4 + 4)).getLsbD k = _
  rw [BitVec.getLsbD_append, BitVec.getLsbD_append]

theorem wordOp_mkWord (op arg : Nibble) (len : Nat) : wordOp (mkWord op arg len) = op := by
  apply BitVec.eq_of_getLsbD_eq
  intro k hk
  rw [wordOp, BitVec.getLsbD_extractLsb', getLsbD_mkWord]
  simp [hk]

theorem wordArg_mkWord (op arg : Nibble) (len : Nat) : wordArg (mkWord op arg len) = arg := by
  apply BitVec.eq_of_getLsbD_eq
  intro k hk
  rw [wordArg, BitVec.getLsbD_extractLsb', getLsbD_mkWord]
  simp [hk]

theorem wordLen_mkWord (op arg : Nibble) {len : Nat} (h : len ≤ 255) : wordLen (mkWord op arg len) = len := by
  have hx : (mkWord op arg len).extractLsb' 8 8 = BitVec.ofNat 8 len := by
    apply BitVec.eq_of_getLsbD_eq
    intro k hk
    have h2 : ¬ 8 + k < 4 := by omega
    have h3 : ¬ 8 + k - 4 < 4 := by omega
    have h4 : 8 + k - 4 - 4 = k := by omega
    rw [BitVec.getLsbD_extractLsb', getLsbD_mkWord, if_neg h2, if_neg h3, h4]
    simp [hk]
  rw [wordLen, hx, BitVec.toNat_ofNat]
  omega

namespace Laws.EncodedFields

/-- The word of an operation whose byte count fits `len` carries its `op`, its `arg` and its byte count. -/
def Statement (i : Instr) : Prop :=
  i.buf.length ≤ 255 →
    wordOp (encode i).1 = i.op ∧ wordArg (encode i).1 = i.arg ∧ wordLen (encode i).1 = i.buf.length

theorem fields_of_encode (i : Instr) : Statement i := fun h =>
  ⟨wordOp_mkWord _ _ _, wordArg_mkWord _ _ _, wordLen_mkWord _ _ h⟩

theorem pmDecode (arg : Nibble) (buf : List Byte) : Statement (.pmDecode arg buf) := fields_of_encode _
theorem co2Decode (arg : Nibble) (buf : List Byte) : Statement (.co2Decode arg buf) := fields_of_encode _
theorem thDecode (arg : Nibble) (buf : List Byte) : Statement (.thDecode arg buf) := fields_of_encode _
theorem cmdFrame (arg : Nibble) (buf : List Byte) : Statement (.cmdFrame arg buf) := fields_of_encode _
theorem be16 (arg : Nibble) (buf : List Byte) : Statement (.be16 arg buf) := fields_of_encode _
theorem sum16 (arg : Nibble) (buf : List Byte) : Statement (.sum16 arg buf) := fields_of_encode _
theorem crc8 (arg : Nibble) (buf : List Byte) : Statement (.crc8 arg buf) := fields_of_encode _

end Laws.EncodedFields

end Sys2Proof
end

