-- ==== Sys2Proof/Laws/Pmu.lean ====
section
/-! SUPPORT. What the Frame Scanner finds (41_pm_scanner_decoder.md R121, R128), and what follows a match. -/

namespace Sys2Proof.Machine

theorem markerAt_lt {buf : List Byte} {i : Nat} (h : MarkerAt buf i) : i + 1 < buf.length :=
  (List.getElem?_eq_some_iff.mp h.2).1

/-- The scan from `i` finds the first marker at or after `i`, or says that there is none, and reads nothing outside the buffer. -/
theorem scanFrom_spec (buf : List Byte) : ∀ (fuel i : Nat), buf.length ≤ fuel + i →
    (∃ j, scanFrom buf fuel i = .ok (some j) ∧ MarkerAt buf j ∧ ∀ k, i ≤ k → k < j → ¬ MarkerAt buf k) ∨
    (scanFrom buf fuel i = .ok none ∧ ∀ k, i ≤ k → ¬ MarkerAt buf k) := by
  intro fuel
  induction fuel with
  | zero =>
    intro i h
    exact .inr ⟨rfl, fun k hk hm => by have := markerAt_lt hm; omega⟩
  | succ fuel ih =>
    intro i h
    by_cases hi : i + 1 < buf.length
    · have h0 : i < buf.length := by omega
      have hread : scanFrom buf (fuel + 1) i =
          if buf.getD i 0 = 0x42 ∧ buf.getD (i + 1) 0 = 0x4D then .ok (some i) else scanFrom buf fuel (i + 1) := by
        rw [scanFrom, if_pos hi, readByte_of_lt h0, readByte_of_lt hi]
        rfl
      have hmark : MarkerAt buf i ↔ buf.getD i 0 = 0x42 ∧ buf.getD (i + 1) 0 = 0x4D := by
        simp [MarkerAt, List.getElem?_eq_getElem h0, List.getElem?_eq_getElem hi]
      by_cases hm : MarkerAt buf i
      · refine .inl ⟨i, ?_, hm, fun k h1 h2 => by omega⟩
        rw [hread, if_pos (hmark.mp hm)]
      · have hskip : scanFrom buf (fuel + 1) i = scanFrom buf fuel (i + 1) := by
          rw [hread, if_neg (fun h => hm (hmark.mpr h))]
        have hlater : ∀ k, i ≤ k → ¬ (i + 1 ≤ k) → ¬ MarkerAt buf k := by
          intro k h1 h2
          have : k = i := by omega
          exact this ▸ hm
        rcases ih (i + 1) (by omega) with ⟨j, hj, hmj, hfirst⟩ | ⟨hj, hnone⟩
        · refine .inl ⟨j, hskip.trans hj, hmj, fun k h1 h2 => ?_⟩
          by_cases hk : i + 1 ≤ k
          · exact hfirst k hk h2
          · exact hlater k h1 hk
        · refine .inr ⟨hskip.trans hj, fun k h1 => ?_⟩
          by_cases hk : i + 1 ≤ k
          · exact hnone k hk
          · exact hlater k h1 hk
    · refine .inr ⟨by rw [scanFrom, if_neg hi], fun k hk hm => by have := markerAt_lt hm; omega⟩

/-- The whole scan finds the first marker of the buffer or says that there is none. -/
theorem scan_cases (buf : List Byte) :
    (∃ i, scan buf = .ok (some i) ∧ FirstMarker buf i) ∨ (scan buf = .ok none ∧ ∀ i, ¬ MarkerAt buf i) := by
  rcases scanFrom_spec buf buf.length 0 (by omega) with ⟨i, h, hm, hf⟩ | ⟨h, hn⟩
  · exact .inl ⟨i, h, hm, fun j hj => hf j (by omega) hj⟩
  · exact .inr ⟨h, fun i => hn i (by omega)⟩

theorem firstMarker_unique {buf : List Byte} {i j : Nat} (hi : FirstMarker buf i) (hj : FirstMarker buf j) : i = j := by
  rcases Nat.lt_trichotomy i j with h | h | h
  · exact absurd hi.1 (hj.2 i h)
  · exact h
  · exact absurd hj.1 (hi.2 j h)

theorem scan_of_firstMarker {buf : List Byte} {i : Nat} (h : FirstMarker buf i) : scan buf = .ok (some i) := by
  rcases scan_cases buf with ⟨j, hs, hj⟩ | ⟨_, hn⟩
  · rw [hs, firstMarker_unique h hj]
  · exact absurd h.1 (hn i)

theorem scan_of_no_marker {buf : List Byte} (h : ∀ i, ¬ MarkerAt buf i) : scan buf = .ok none := by
  rcases scan_cases buf with ⟨j, _, hj⟩ | ⟨hs, _⟩
  · exact absurd hj.1 (h j)
  · exact hs

/-- The decoder's answer once the first marker is known. -/
theorem pmResponse_of_firstMarker {buf : List Byte} {i : Nat} (h : FirstMarker buf i) :
    pmResponse buf = .ok
      (if buf.length - i < 32 then raise .frameTruncated
       else if frameSum buf i = wordAt buf (i + 30) then ⟨.ok, .pmSample (sampleAt buf i)⟩
       else raise .checksumMismatch) := by
  have hlen := markerAt_lt h.1
  rw [pmResponse, scan_of_firstMarker h]
  show pmFrameResponse buf i = _
  unfold pmFrameResponse
  by_cases hs : buf.length - i < 32
  · simp [hs, Config.frameSize]
  · rw [if_neg (show ¬ buf.length - i < Config.frameSize from hs), if_neg hs,
      readPmWords_of_le (by omega),
      readRange_of_le (show i + Config.pmSumLen ≤ buf.length by simp only [Config.pmSumLen]; omega)]
    show (if frameSum buf i = (sampleAt buf i).checksum then _ else _) = _
    rw [sampleAt_checksum]
    split <;> rfl

theorem pmResponse_of_no_marker {buf : List Byte} (h : ∀ i, ¬ MarkerAt buf i) :
    pmResponse buf = .ok (raise .frameNotFound) := by
  rw [pmResponse, scan_of_no_marker h]
  rfl

end Sys2Proof.Machine
end

