-- ==== Sys2Proof/Laws/Schedule.lean ====
section
/-! SUPPORT. What a step can do: one inversion lemma for a meaning, for each agent's move and for the step (60_exceptions.md R208). -/

namespace Sys2Proof.Machine

/-! Each operation is `serve` over its own rule's body. -/

theorem exec_pmDecode (arg : Nibble) (buf : List Byte) (s : State) :
    exec (.pmDecode arg buf) s = serve (.pmDecode arg buf) (pmResponse buf) s := rfl

theorem exec_co2Decode (arg : Nibble) (buf : List Byte) (s : State) :
    exec (.co2Decode arg buf) s = serve (.co2Decode arg buf) (co2Response buf) s := rfl

theorem exec_thDecode (arg : Nibble) (buf : List Byte) (s : State) :
    exec (.thDecode arg buf) s = serve (.thDecode arg buf) (thResponse Config.thermalPrecision buf) s := rfl

theorem exec_cmdFrame (arg : Nibble) (buf : List Byte) (s : State) :
    exec (.cmdFrame arg buf) s = serve (.cmdFrame arg buf) (cmdResponse s.cmd arg) s := rfl

theorem exec_be16 (arg : Nibble) (buf : List Byte) (s : State) :
    exec (.be16 arg buf) s = serve (.be16 arg buf) (be16Response buf) s := rfl

theorem exec_sum16 (arg : Nibble) (buf : List Byte) (s : State) :
    exec (.sum16 arg buf) s = serve (.sum16 arg buf) (sum16Response buf) s := rfl

theorem exec_crc8 (arg : Nibble) (buf : List Byte) (s : State) :
    exec (.crc8 arg buf) s = serve (.crc8 arg buf) (crc8Response buf) s := rfl

/-- An operation that answers a next state has delivered one response of its unit to its request. -/
theorem exec_next {i : Instr} {s t : State} (h : exec i s = .next t) :
    ∃ resp, t = s.deliver i.unit i.toRequest resp := by
  cases i with
  | pmDecode arg buf => exact serve_next h
  | co2Decode arg buf => exact serve_next h
  | thDecode arg buf => exact serve_next h
  | cmdFrame arg buf => exact serve_next h
  | be16 arg buf => exact serve_next h
  | sum16 arg buf => exact serve_next h
  | crc8 arg buf => exact serve_next h

/-- Everything a unit's move can do. -/
theorem unitMove_next {s t : State} {u : UnitId} (h : unitMove s u = .next t) :
    (∃ r i, s.ustate.get u = .busy r ∧ decodeRequest r = .ok i ∧ exec i s = .next t) ∨
    (∃ r e, s.ustate.get u = .busy r ∧ decodeRequest r = .error e ∧
      t = (s.dropRequest u).deliverInterface r (raise .illegalRequest)) ∨
    (s.ustate.get u = .idle ∧ s.waiting.get u = [] ∧ t = s) ∨
    (∃ r rest, s.ustate.get u = .idle ∧ s.waiting.get u = r :: rest ∧ t = s.accept u r rest) := by
  unfold unitMove at h
  split at h
  · rename_i r hb
    split at h
    · rename_i i hd
      exact .inl ⟨r, i, hb, hd, h⟩
    · rename_i e hd
      exact .inr (.inl ⟨r, e, hb, hd, (Host.Outcome.next.inj h).symm⟩)
  · rename_i hi
    split at h
    · rename_i hw
      exact .inr (.inr (.inl ⟨hi, hw, (Host.Outcome.next.inj h).symm⟩))
    · rename_i r rest hw
      exact .inr (.inr (.inr ⟨r, rest, hi, hw, (Host.Outcome.next.inj h).symm⟩))

/-- With an event scheduled, the step is that event's move. -/
theorem step_of_schedule {s : State} {e : Event} {rest : List Event} (h : s.schedule = e :: rest) :
    step s = eventMove { s with schedule := rest } e := by
  rw [step, advance, h]

/-- Everything a step can do. -/
theorem step_next {s t : State} (h : step s = .next t) :
    (∃ e rest, s.schedule = e :: rest ∧ eventMove { s with schedule := rest } e = .next t) ∨
    (∃ u, s.schedule = [] ∧ s.firstEnabled = some u ∧ unitMove s u = .next t) ∨
    (s.schedule = [] ∧ s.firstEnabled = none ∧ t = s) := by
  unfold step advance at h
  split at h
  · rename_i e rest hs
    exact .inl ⟨e, rest, hs, h⟩
  · rename_i hs
    split at h
    · rename_i u hu
      exact .inr (.inl ⟨u, hs, hu, h⟩)
    · rename_i hu
      exact .inr (.inr ⟨hs, hu, (Host.Outcome.next.inj h).symm⟩)

/-- A request that decodes is the request of the operation it decodes to. -/
theorem toRequest_of_decodeRequest {r : Request} {i : Instr} (h : decodeRequest r = .ok i) : i.toRequest = r := by
  obtain ⟨op, arg, buf⟩ := r
  unfold decodeRequest at h
  split at h <;> first | (cases h; rename_i ho; simp only [Instr.toRequest, Instr.op, Instr.arg, Instr.buf, Request.mk.injEq, and_true]; exact (BitVec.eq_of_toNat_eq (by simpa using ho)).symm) | cases h

theorem decodeRequest_toRequest (i : Instr) : decodeRequest i.toRequest = .ok i := by
  cases i <;> rfl

theorem unit_toRequest (i : Instr) : i.toRequest.unit = some i.unit := by
  cases i <;> rfl

/-- A request names a unit exactly when it decodes, and then the operation's unit. -/
theorem unit_of_decodeRequest {r : Request} {i : Instr} (h : decodeRequest r = .ok i) : r.unit = some i.unit := by
  rw [← toRequest_of_decodeRequest h, unit_toRequest]

theorem unit_of_decodeRequest_error {r : Request} {e : DecodeError} (h : decodeRequest r = .error e) : r.unit = none := by
  unfold decodeRequest at h
  unfold Request.unit unitOfOp
  split at h <;> first | (cases h; done) | (cases h; rfl)

end Sys2Proof.Machine
end

