-- ==== Sys2Proof/Laws/Units.lean ====
section
/-! SUPPORT. What each operation's own rule computes on a legal buffer, as one equation each (40_primitives.md, 42_co2.md, 43_thermal.md, 44_command_frames.md). -/

namespace Sys2Proof.Machine

theorem be16Response_pair (hi lo : Byte) : be16Response [hi, lo] = .ok ⟨.ok, .word16 (be16 hi lo)⟩ := rfl

theorem sum16Response_eq (buf : List Byte) : sum16Response buf = .ok ⟨.ok, .word16 (sum16 buf)⟩ := by
  rw [sum16Response, readRange_of_le (by omega)]
  simp [bind, Except.bind]

theorem crc8Response_eq (buf : List Byte) : crc8Response buf = .ok ⟨.ok, .word16 (zext16 (crc8 buf))⟩ := by
  rw [crc8Response, readRange_of_le (by omega)]
  simp [bind, Except.bind]

theorem co2Response_of_length {buf : List Byte} (h : buf.length = 7) :
    co2Response buf = .ok ⟨.ok, .co2Value (zext32 (wordAt buf 3))⟩ := by
  rw [co2Response, if_pos (show buf.length = Config.co2RespLen from h), readByte_of_lt (by omega), readByte_of_lt (by omega)]
  rfl

theorem co2Response_of_other_length {buf : List Byte} (h : buf.length ≠ 7) :
    co2Response buf = .ok ⟨.invalidResponseLength, .co2Value 0⟩ := by
  rw [co2Response, if_neg (show ¬ buf.length = Config.co2RespLen from h)]

theorem thResponse_six (p : Config.Precision) (b0 b1 b2 b3 b4 b5 : Byte) :
    thResponse p [b0, b1, b2, b3, b4, b5] = .ok
      (if crc8 [b0, b1] ≠ b2 then raise .temperatureCrcInvalid
       else if crc8 [b3, b4] ≠ b5 then raise .humidityCrcInvalid
       else ⟨.ok, .thermalSample (convT p (be16 b0 b1)) (convH p (be16 b3 b4))⟩) := by
  simp only [thResponse, readByte, List.getElem?_cons_zero, List.getElem?_cons_succ, bind, Except.bind]
  split
  · rfl
  · split <;> rfl

theorem cmdResponse_of_entry {t : CmdTable} {arg : Nibble} {bs : List Byte} (h : t.entry arg.toNat = some bs) :
    cmdResponse t arg = .ok ⟨.ok, .bytes bs⟩ := by
  rw [cmdResponse, readCmd, h]
  rfl

end Sys2Proof.Machine
end

