-- ==== Sys2Proof/Tests/Slice0.lean ====
section
/-! SUPPORT. Tests, each of one step or one function on small values. Expected results are the spec's: the vectors of 95_test_vectors.md and the corner cases and examples of the operation rules, named beside each. The last section shows, for every statement with hypotheses, values that meet them. -/

namespace Sys2Proof.Tests

open Sys2Proof Sys2Proof.Machine

/-! The model's own checks refuse ill-formed requests (R63, R64), one term per check. -/

theorem test_wf_pm_arg : Instr.wellFormed (.pmDecode 1 []) = false := by decide
theorem test_wf_pm_len : Instr.wellFormed (.pmDecode 0 (List.replicate 129 0)) = false := by decide +kernel
theorem test_wf_co2_arg : Instr.wellFormed (.co2Decode 2 []) = false := by decide
theorem test_wf_co2_len : Instr.wellFormed (.co2Decode 0 (List.replicate 129 0)) = false := by decide +kernel
theorem test_wf_th_arg : Instr.wellFormed (.thDecode 1 [0, 0, 0, 0, 0, 0]) = false := by decide
theorem test_wf_th_len : Instr.wellFormed (.thDecode 0 [0x66, 0x66, 0x93, 0x99, 0x99]) = false := by decide
theorem test_wf_cmd_arg : Instr.wellFormed (.cmdFrame 4 []) = false := by decide
theorem test_wf_cmd_len : Instr.wellFormed (.cmdFrame 0 [0]) = false := by decide
theorem test_wf_be16_arg : Instr.wellFormed (.be16 1 [1, 2]) = false := by decide
theorem test_wf_be16_len : Instr.wellFormed (.be16 0 [1, 2, 3]) = false := by decide
theorem test_wf_sum16_arg : Instr.wellFormed (.sum16 1 []) = false := by decide
theorem test_wf_sum16_len : Instr.wellFormed (.sum16 0 (List.replicate 129 0)) = false := by decide +kernel
theorem test_wf_crc8_arg : Instr.wellFormed (.crc8 1 []) = false := by decide
theorem test_wf_crc8_len : Instr.wellFormed (.crc8 0 (List.replicate 129 0)) = false := by decide +kernel

/-! Decoding of words written out from R60's `LLLLLLLLAAAAOOOO` (the words of 95). -/

theorem test_decode_pm : decode 0b0000000100000000 [0x42] = .ok (.pmDecode 0 [0x42], []) := by decide
theorem test_decode_co2 : decode 0b0000000000000001 [] = .ok (.co2Decode 0 [], []) := by decide
theorem test_decode_th :
    decode 0b0000011000000010 [0x66, 0x66, 0x93, 0x99, 0x99, 0xBE] =
      .ok (.thDecode 0 [0x66, 0x66, 0x93, 0x99, 0x99, 0xBE], []) := by decide
theorem test_decode_cmd : decode 0b0000000000110011 [] = .ok (.cmdFrame 3 [], []) := by decide
theorem test_decode_be16 : decode 0b0000001000000100 [0x00, 0x1C, 0x7E] = .ok (.be16 0 [0x00, 0x1C], [0x7E]) := by decide
theorem test_decode_sum16 :
    decode 0b0000010100000101 [0x42, 0x4D, 0xE4, 0, 0] = .ok (.sum16 0 [0x42, 0x4D, 0xE4, 0, 0], []) := by decide
theorem test_decode_crc8 : decode 0b0000001000000110 [0xBE, 0xEF] = .ok (.crc8 0 [0xBE, 0xEF], []) := by decide
/-- L2-C-7. -/
theorem test_decode_reserved : decode 0b0000000000000111 [] = .error (.reservedOp 7) := by decide
theorem test_decode_short : decode 0b0000001000000110 [0xBE] = .error (.dataShort 2 1) := by decide
/-- L2-CO2-8: `arg` is bits [7:4]. -/
theorem test_decode_arg : decode 0b0000000000100001 [] = .ok (.co2Decode 2 [], []) := by decide
theorem test_decode_table_word : decodeTableWord 16 0x0602 = some (.thDecode 0 [0, 0, 0, 0, 0, 0]) := by decide
theorem test_encode_cmd : encode (.cmdFrame 1 []) = (0x0013, []) := by decide

/-! Answers at reset. -/

/-- The response an operation delivers at reset. -/
def answer (i : Instr) : Option Response :=
  match exec i State.reset with
  | .next t => (t.delivered.get i.unit).getLast?.map (·.resp)
  | .fault _ => none
  | .refused _ => none

/-- The frame of L1-1. -/
def frameF : List Byte :=
  [0x42, 0x4D, 0x00, 0x1C, 0x00, 0x05, 0x00, 0x0A, 0x00, 0x0F] ++ List.replicate 20 0 ++ [0x00, 0xC9]

/-- L2-PM-8: the frame at odd index 5, bytes after it ignored. -/
theorem test_pm_frame :
    answer (.pmDecode 0 ([0x00, 0x42, 0x00, 0x4D, 0x11] ++ frameF ++ [0xAA, 0xBB, 0xCC])) =
      some ⟨.ok, .pmSample ⟨#v[0x001C, 5, 10, 15, 0, 0, 0, 0, 0, 0, 0, 0, 0, 0, 0x00C9]⟩⟩ := by decide +kernel
/-- L2-PM-10: a chance marker before the frame decides. -/
theorem test_pm_spurious_marker :
    answer (.pmDecode 0 ([0x42, 0x4D, 0x01, 0x02] ++ frameF)) = some ⟨.checksumMismatch, .none⟩ := by decide +kernel
/-- L2-CO2-1. -/
theorem test_co2_value :
    answer (.co2Decode 0 [0xFE, 0x04, 0x02, 0x01, 0x90, 0xAC, 0xD8]) = some ⟨.ok, .co2Value 400⟩ := by decide
/-- L2-CO2-8: an illegal CO2 request still carries value 0. -/
theorem test_co2_illegal :
    answer (.co2Decode 2 [0xFE, 0x04, 0x02, 0x01, 0x90, 0xAC, 0xD8]) = some ⟨.illegalRequest, .co2Value 0⟩ := by decide
/-- L2-TH-3. -/
theorem test_th_sample :
    answer (.thDecode 0 [0xBE, 0xEF, 0x92, 0xBE, 0xEF, 0x92]) =
      some ⟨.ok, .thermalSample 0x42AB0BC7 0x42952B4D⟩ := by decide +kernel
/-- L2-TH-8: both CRCs fail. -/
theorem test_th_both_crcs :
    answer (.thDecode 0 [0x66, 0x66, 0x00, 0x99, 0x99, 0x00]) = some ⟨.temperatureCrcInvalid, .none⟩ := by decide +kernel
/-- L2-C-4. -/
theorem test_cmd_co2 :
    answer (.cmdFrame 3 []) = some ⟨.ok, .bytes [0xFE, 0x04, 0x00, 0x03, 0x00, 0x01, 0xD5, 0xC5]⟩ := by decide
/-- L2-C-5. -/
theorem test_cmd_illegal : answer (.cmdFrame 4 []) = some ⟨.illegalRequest, .none⟩ := by decide
/-- L2-P-1. -/
theorem test_be16 : answer (.be16 0 [0x00, 0x1C]) = some ⟨.ok, .word16 0x001C⟩ := by decide
/-- L2-P-5. -/
theorem test_sum16 : answer (.sum16 0 [0x42, 0x4D, 0xE4, 0, 0]) = some ⟨.ok, .word16 0x0173⟩ := by decide
/-- L1-4. -/
theorem test_crc8 : answer (.crc8 0 [0xBE, 0xEF]) = some ⟨.ok, .word16 0x0092⟩ := by decide +kernel
/-- L2-P-9: the initial value. -/
theorem test_crc8_empty : answer (.crc8 0 []) = some ⟨.ok, .word16 0x00FF⟩ := by decide

/-- L2-TH-5 and L2-TH-4: a small humidity and a rounded temperature. -/
theorem test_conv_small :
    convH .binary64 1 = 0x3AC800C8 ∧ convT .binary64 1 = 0xC233FD44 ∧ convT .binary64 0x8000 = 0x422A015E := by
  decide +kernel
/-- L2-TH-10. -/
theorem test_conv_precisions : convT .binary64 327 = 0xC23081D9 ∧ convT .binary32 327 = 0xC23081D8 := by
  decide +kernel

/-! The step. -/

/-- The CMDU's interface state and answers after one step. -/
def cmduAfterStep (s : State) : Option (UState × List Response) :=
  match step s with
  | .next t => some (t.ustate.cmdu, t.delivered.cmdu.map (·.resp))
  | .fault _ => none
  | .refused _ => none

/-- The very next step runs the placed word: CMD_FRAME 1 frees the CMDU and answers the wake frame (R191). -/
theorem test_step_placed_word :
    cmduAfterStep (State.reset.withFetchWord 16 0x0013) =
      some (.idle, [⟨.ok, .bytes [0x42, 0x4D, 0xE4, 0x00, 0x01, 0x01, 0x74]⟩]) := by decide
/-- L2-C-7: a reserved `op` is answered by the interface. -/
theorem test_step_reserved_op :
    step { State.reset with schedule := [.host ⟨7, 0, []⟩] } =
      .next { State.reset with ifaceDelivered := [⟨⟨7, 0, []⟩, ⟨.illegalRequest, .none⟩⟩] } := rfl
/-- P4: a request to a Busy unit is held. -/
theorem test_step_hold :
    step { State.reset with ustate.pmu := .busy ⟨0, 0, []⟩, schedule := [.host ⟨0, 0, [0x42, 0x4D]⟩] } =
      .next { State.reset with ustate.pmu := .busy ⟨0, 0, []⟩, waiting.pmu := [⟨0, 0, [0x42, 0x4D]⟩] } := rfl
/-- R68's own example of a spelling, L2-C-2 and L1-4. -/
theorem test_text :
    requestText (.cmdFrame 1 []) = some "CMD_FRAME 1".toList ∧
    requestText (.crc8 0 [0xBE, 0xEF]) = some "CRC8 [BE EF]".toList ∧
    responseText ⟨.ok, .word16 0x0092⟩ = "-> OK 0x0092".toList := by decide +kernel

/-! Witnesses: values that meet every hypothesis of each statement. -/

theorem firstMarker_zero {bs : List Byte} : FirstMarker (0x42 :: 0x4D :: bs) 0 :=
  ⟨⟨rfl, rfl⟩, fun j hj => absurd hj (Nat.not_lt_zero j)⟩

theorem not_markerAt_of_short {buf : List Byte} (h : buf.length < 2) (i : Nat) : ¬ MarkerAt buf i := fun hm => by
  have := (List.getElem?_eq_some_iff.mp hm.2).1
  omega

/-- A busy PMU with one more request waiting, the rest idle. -/
def busyState (sched : List Event) : State :=
  { State.reset with
    ustate.pmu := .busy ⟨0, 0, []⟩
    waiting.thu := [⟨2, 0, [0, 0, 0x81, 0, 0, 0x81]⟩]
    schedule := sched }

theorem busyState_wired {sched : List Event} (h : ∀ r, Event.host r ∈ sched → r.buf.length ≤ 255) :
    (busyState sched).Wired := by
  refine ⟨rfl, ?_, ?_, h⟩
  · intro u r hr
    cases u <;> simp [busyState, State.reset, PerUnit.get] at hr
    subst hr
    exact ⟨rfl, by decide⟩
  · intro u r hr
    cases u <;> simp [busyState, State.reset, PerUnit.get] at hr
    subst hr
    exact ⟨rfl, by decide⟩

theorem reset_wired : State.reset.Wired := by
  refine ⟨rfl, ?_, ?_, ?_⟩
  · intro u r hr; cases u <;> simp [State.reset, PerUnit.get] at hr
  · intro u r hr; cases u <;> simp [State.reset, PerUnit.get] at hr
  · intro r hr; simp [State.reset] at hr

theorem witness_EncodedRequestsDecodeBack :
    (Instr.pmDecode 15 (List.replicate 255 0)).buf.length ≤ 255 := by decide +kernel
theorem witness_DecodedRequestsEncodeBack : decode 0xFF06 (List.replicate 255 1) = .ok (.crc8 0 (List.replicate 255 1), []) := by
  decide +kernel
theorem witness_LegalityTableDecidesLegality :
    ([1, 2] : List Byte).length = wordLen 0x0204 ∧
    (∃ row, row ∈ legalityTable ∧ row.matches 0x0204 = true) ∧
    (List.replicate 129 (0 : Byte)).length = wordLen 0x8100 ∧
    (∀ row, row ∈ legalityTable → row.matches 0x8100 = false) := by decide +kernel
theorem witness_ReservedOpIsAnsweredByTheInterface :
    7 ≤ (⟨7, 0, []⟩ : Request).op.toNat ∧
    ({ State.reset with schedule := [.host ⟨7, 0, []⟩] } : State).schedule = .host ⟨7, 0, []⟩ :: [] := by decide
theorem witness_IllegalRequestsAreAnsweredByTheirUnit : Instr.wellFormed (.cmdFrame 4 []) = false := by decide
theorem witness_StatusCodesAreTheTable : 8 ≤ (8 : Nibble).toNat := by decide
theorem witness_Be16FunctionIsTheBigEndianWord : be16 0xFF 0x00 = be16 0xFF 0x00 := rfl
theorem witness_Sum16LawsHold :
    (List.replicate 257 (0xFF : Byte)).length ≤ 257 ∧ [(1 : Byte), 2].Perm [2, 1] ∧
    (([] : List Byte) ++ 0 :: List.replicate 256 0xFF).length ≤ 257 ∧ (0 : Byte) ≠ 0xFF ∧
    (1 : Byte).toNat + (4 : Byte).toNat = (2 : Byte).toNat + (3 : Byte).toNat := by
  refine ⟨by decide +kernel, List.Perm.swap _ _ _, by decide +kernel, by decide +kernel, by decide +kernel⟩
/-- R107's first undetected pattern, and an error within one byte. -/
theorem undetected_0131 : Undetected 0x0131 := fun d => by
  have h1 : (d ^^^ 0x0131).extractLsb' 8 8 = d.extractLsb' 8 8 ^^^ (0x01 : Byte) := by
    rw [BitVec.extractLsb'_xor]; rfl
  have h2 : (d ^^^ 0x0131).extractLsb' 0 8 = d.extractLsb' 0 8 ^^^ (0x31 : Byte) := by
    rw [BitVec.extractLsb'_xor]; rfl
  have h3 : crc8Shift8 (0x01 : Byte) = 0x31 := by decide
  have h4 : ∀ a b : Byte, a ^^^ 0x31 ^^^ (b ^^^ 0x31) = a ^^^ b := fun a b => by
    rw [BitVec.xor_comm b, ← BitVec.xor_assoc, BitVec.xor_assoc a, BitVec.xor_self, BitVec.xor_zero]
  simp only [groupBytes, h1, h2, crc8_pair]
  rw [← BitVec.xor_assoc Config.crc8Init, crc8Shift8_xor _ (0x01 : Byte), h3, h4]

theorem witness_Crc8LawsHold :
    (0x0131 : Word16) ≠ 0 ∧ Undetected 0x0131 ∧ (0x0131 : Word16).toNat < 0x0262 ∧
    (0x8000 : Word16) ≠ 0 ∧ (0x8000 : Word16) &&& 0x00FF = 0 := ⟨by decide, undetected_0131, by decide, by decide, by decide⟩
theorem witness_Be16RequestAnswersTheWord : ¬ ((0 : Nibble) = 0 ∧ ([1, 2, 3] : List Byte).length = 2) := by decide
theorem witness_Sum16RequestAnswersTheSum :
    (List.replicate 128 (0xFF : Byte)).length ≤ 128 ∧
    ¬ ((0 : Nibble) = 0 ∧ (List.replicate 129 (0 : Byte)).length ≤ 128) := by decide +kernel
theorem witness_Crc8RequestAnswersTheCrc :
    (List.replicate 128 (0xFF : Byte)).length ≤ 128 ∧ ¬ ((1 : Nibble) = 0 ∧ ([] : List Byte).length ≤ 128) := by decide +kernel
theorem witness_PmWithoutMarkerIsFrameNotFound :
    ([0x42] : List Byte).length ≤ 128 ∧ (∀ i, ¬ MarkerAt [0x42] i) ∧ ([0x42] : List Byte).length < 2 :=
  ⟨by decide, not_markerAt_of_short (by decide), by decide⟩
/-- 31 bytes from the marker: the boundary of R123. -/
theorem witness_PmShortFrameIsFrameTruncated :
    (frameF.take 31).length ≤ 128 ∧ FirstMarker (frameF.take 31) 0 ∧ (frameF.take 31).length - 0 < 32 :=
  ⟨by decide, firstMarker_zero, by decide⟩
theorem witness_PmValidFrameAnswersItsWords :
    frameF.length ≤ 128 ∧ FirstMarker frameF 0 ∧ 32 ≤ frameF.length - 0 ∧ frameSum frameF 0 = wordAt frameF (0 + 30) :=
  ⟨by decide, firstMarker_zero, by decide, by decide +kernel⟩
theorem witness_PmWrongSumIsChecksumMismatch :
    (frameF.set 31 0xC8).length ≤ 128 ∧ FirstMarker (frameF.set 31 0xC8) 0 ∧ 32 ≤ (frameF.set 31 0xC8).length - 0 ∧
      frameSum (frameF.set 31 0xC8) 0 ≠ wordAt (frameF.set 31 0xC8) (0 + 30) :=
  ⟨by decide, firstMarker_zero, by decide, by decide +kernel⟩
theorem witness_PmFirstMatchDecides :
    (frameF ++ [1]).length ≤ 128 ∧ frameF.length ≤ 128 ∧ FirstMarker (frameF ++ [1]) 0 ∧
      0 + 32 ≤ (frameF ++ [1]).length ∧ 0 + 32 ≤ frameF.length ∧ (frameF ++ [1]).take (0 + 32) = frameF.take (0 + 32) :=
  ⟨by decide, by decide, firstMarker_zero, by decide, by decide, by decide⟩
theorem witness_PmShortBuffersNeverGiveASample :
    (frameF.take 31).length < 32 ∧ ∃ i, MarkerAt (frameF.take 31) i := ⟨by decide, 0, rfl, rfl⟩
theorem witness_PmSingleByteChangeIsCaught :
    frameF.length ≤ 128 ∧ FirstMarker frameF 0 ∧ 0 + 32 ≤ frameF.length ∧ frameSum frameF 0 = wordAt frameF (0 + 30) ∧
      2 ≤ 7 ∧ 7 ≤ 31 ∧ (0x0B : Byte) ≠ frameF.getD (0 + 7) 0 ∧ 2 ≤ 31 ∧ (0xC8 : Byte) ≠ frameF.getD (0 + 31) 0 :=
  ⟨by decide, firstMarker_zero, by decide, by decide +kernel, by decide, by decide, by decide, by decide, by decide⟩
theorem witness_Co2RequestAnswersTheConcentration :
    ([] : List Byte).length ≤ 128 ∧ ([] : List Byte).length ≠ 7 ∧ (List.replicate 8 (0 : Byte)).length ≠ 7 := by decide
theorem witness_Co2ResultDependsOnLengthAndTwoBytes :
    ([1, 2, 3, 4, 5, 6, 7] : List Byte).length = ([9, 2, 3, 4, 5, 6, 9] : List Byte).length ∧
    ([1, 2, 3, 4, 5, 6, 7] : List Byte)[3]? = ([9, 2, 3, 4, 5, 6, 9] : List Byte)[3]? ∧
    ([1, 2, 3, 4, 5, 6, 7] : List Byte)[4]? = ([9, 2, 3, 4, 5, 6, 9] : List Byte)[4]? := by decide
theorem witness_ThermalCrcFailuresEndTheOperation :
    crc8 [0x66, 0x66] ≠ 0x94 ∧ crc8 [0x66, 0x66] = 0x93 ∧ crc8 [0x99, 0x99] ≠ 0xBF := by decide +kernel
theorem witness_RoundingIsNearestTiesToEven :
    (FpFormat.binary32 = .binary32 ∨ FpFormat.binary32 = .binary64) ∧ 0 < 175 ∧ 0 < 65535 := by decide
theorem witness_ThermalConversionsIncreaseWithinRange : (0 : Word16).toNat < (0xFFFF : Word16).toNat := by decide
theorem witness_PrecisionsFirstDifferAtCode327 : (326 : Word16).toNat < 327 := by decide
theorem witness_CommandFramesAreTheTable :
    State.reset.cmd = CmdTable.built ∧ 3 < (4 : Nibble).toNat ∧ ([0] : List Byte) ≠ [] := by decide
theorem witness_PmCommandFramesCarryTheirSum :
    CmdTable.built.entry 2 = some [0x42, 0x4D, 0xE2, 0x00, 0x00, 0x01, 0x71] := rfl
theorem witness_OperationsChangeOnlyTheirUnit : ∃ t, exec (.be16 0 [0x00, 0x1C]) State.reset = .next t := ⟨_, rfl⟩
theorem witness_ResponsesFollowThePayloadTable : State.reset.cmd = CmdTable.built := rfl
theorem witness_ResponseIsAFunctionOfTheRequest : State.reset.cmd = (busyState []).cmd := rfl
theorem witness_ResetEventDropsRequestsInFlight : (busyState [.reset]).schedule = .reset :: [] := rfl
theorem witness_StepRunsTheHeldRequest :
    decode 0x0000 [] = .ok (.pmDecode 0 [], []) ∧
    (busyState [.unit .pmu]).ustate.get .pmu = .busy ⟨wordOp 0x0000, wordArg 0x0000, []⟩ ∧
    (busyState [.unit .pmu]).schedule = .unit .pmu :: [] ∧
    (busyState []).ustate.get .pmu = .busy ⟨wordOp 0x0000, wordArg 0x0000, []⟩ ∧
    (busyState []).schedule = [] ∧ (busyState []).firstEnabled = some .pmu := by decide
theorem witness_PlacedWordRunsNext : decodeTableWord 16 0x0033 = some (.cmdFrame 3 []) := by decide
theorem witness_UnitsFollowTheIdleBusyCycle :
    (busyState [.unit .thu]).Wired ∧ (busyState [.unit .thu]).ustate.get .thu = .idle ∧
    (busyState [.unit .thu]).waiting.get .thu = ⟨2, 0, [0, 0, 0x81, 0, 0, 0x81]⟩ :: [] ∧
    (busyState [.unit .pmu]).Wired ∧ (busyState [.unit .pmu]).ustate.get .pmu = .busy ⟨0, 0, []⟩ ∧
    (busyState [.host ⟨0, 0, [0x42]⟩]).Wired ∧ (⟨0, 0, [0x42]⟩ : Request).unit = some .pmu :=
  ⟨busyState_wired (by simp), rfl, rfl, busyState_wired (by simp), rfl, busyState_wired (by simp), rfl⟩
theorem witness_UnitsAreIndependent :
    (busyState [.unit .pmu]).Wired ∧ UnitId.thu ≠ .pmu ∧ (busyState [.unit .pmu]).schedule = .unit .pmu :: [] ∧
    (∃ t, step (busyState [.unit .pmu]) = .next t) ∧
    (busyState [.unit .pmu, .reset]).Wired ∧
    (busyState [.unit .pmu]).view .pmu = (busyState [.unit .pmu, .reset]).view .pmu ∧
    (∃ t, step (busyState [.unit .pmu, .reset]) = .next t) :=
  ⟨busyState_wired (by simp), by decide, rfl, ⟨_, rfl⟩, busyState_wired (by simp), rfl, ⟨_, rfl⟩⟩
theorem witness_DifferentUnitsCommute :
    (busyState [.unit .pmu, .unit .thu]).Wired ∧ UnitId.pmu ≠ .thu ∧
    (busyState [.unit .pmu, .unit .thu]).schedule = .unit .pmu :: .unit .thu :: [] :=
  ⟨busyState_wired (by simp), by decide, rfl⟩
theorem witness_InterleavingDoesNotChangeResponses :
    (busyState [.unit .pmu, .host ⟨2, 0, []⟩, .unit .thu, .reset]).Wired := busyState_wired (by simp)
theorem witness_RequestsAreAnsweredInOrder :
    ((busyState [.host ⟨0, 0, []⟩]).Wired ∧ ∃ t, step (busyState [.host ⟨0, 0, []⟩]) = .next t) ∧
    ((busyState [.reset]).Wired ∧ ∃ t, step (busyState [.reset]) = .next t) ∧
    ((busyState [.unit .pmu]).Wired ∧ ∃ t, step (busyState [.unit .pmu]) = .next t) ∧
    ((busyState []).Wired ∧ ∃ t, step (busyState []) = .next t) :=
  ⟨⟨busyState_wired (by simp), _, rfl⟩, ⟨busyState_wired (by simp), _, rfl⟩, ⟨busyState_wired (by simp), _, rfl⟩,
    ⟨busyState_wired (by simp), _, rfl⟩⟩
theorem witness_DeliveredResponsesAreFinal : ∃ t, step (busyState [.unit .pmu]) = .next t := ⟨_, rfl⟩
theorem witness_OutstandingRequestsAreAllAnswered :
    (busyState []).Wired ∧ (busyState []).schedule = [] ∧ (busyState []).work = 3 :=
  ⟨busyState_wired (by simp), rfl, rfl⟩
theorem witness_StepKeepsStateWired : (busyState [.unit .pmu]).Wired ∧ ∃ t, step (busyState [.unit .pmu]) = .next t :=
  ⟨busyState_wired (by simp), _, rfl⟩
theorem witness_StepKeepsAnswersFitting :
    (busyState [.unit .pmu]).Wired ∧ (busyState [.unit .pmu]).AnswersFit ∧ ∃ t, step (busyState [.unit .pmu]) = .next t := by
  refine ⟨busyState_wired (by simp), ⟨?_, ?_⟩, _, rfl⟩
  · intro u d hd; cases u <;> simp [busyState, State.reset, PerUnit.get] at hd
  · intro d hd; simp [busyState, State.reset] at hd
theorem witness_StepKeepsPmSamplesValid :
    (busyState [.unit .pmu]).SamplesValid ∧ ∃ t, step (busyState [.unit .pmu]) = .next t := by
  refine ⟨?_, _, rfl⟩
  intro u d p hd; cases u <;> simp [busyState, State.reset, PerUnit.get] at hd

end Sys2Proof.Tests
end

/-! PROOFS for the statements of spec/00_scope.md: what every operation answers (R12, R13, R23, R51), and the one rounding of R14. -/

namespace Sys2Proof.Machine

/-! ## The answer of every operation -/

/-- What the operation's own rule computes, once its request is legal. The command table is the only part of the state a rule reads (R191). -/
def ruleResponse (t : CmdTable) : Instr → Except Fault Response
  | .pmDecode _ buf => pmResponse buf
  | .co2Decode _ buf => co2Response buf
  | .thDecode _ buf => thResponse Config.thermalPrecision buf
  | .cmdFrame arg _ => cmdResponse t arg
  | .be16 _ buf => be16Response buf
  | .sum16 _ buf => sum16Response buf
  | .crc8 _ buf => crc8Response buf

theorem exec_eq_serve (i : Instr) (s : State) : exec i s = serve i (ruleResponse s.cmd i) s := by
  cases i <;> rfl

/-- The scan stays in the buffer, and a frame is read only when all 32 bytes of it are there (R123, R127). -/
theorem pmResponse_ok (buf : List Byte) : ∃ resp, pmResponse buf = .ok resp := by
  rcases scan_cases buf with ⟨i, _, hfirst⟩ | ⟨_, hnone⟩
  · exact ⟨_, pmResponse_of_firstMarker hfirst⟩
  · exact ⟨_, pmResponse_of_no_marker hnone⟩

theorem co2Response_ok (buf : List Byte) : ∃ resp, co2Response buf = .ok resp := by
  by_cases h : buf.length = 7
  · exact ⟨_, co2Response_of_length h⟩
  · exact ⟨_, co2Response_of_other_length h⟩

theorem thResponse_ok_of_length (p : Config.Precision) {buf : List Byte} (h : buf.length = 6) :
    ∃ resp, thResponse p buf = .ok resp := by
  match buf, h with
  | [_, _, _, _, _, _], _ => exact ⟨_, thResponse_six ..⟩

theorem cmdResponse_ok_of_le (t : CmdTable) {arg : Nibble} (h : arg.toNat ≤ 3) :
    ∃ resp, cmdResponse t arg = .ok resp := by
  obtain ⟨_, hentry, _⟩ := readCmd_of_le t h
  exact ⟨_, cmdResponse_of_entry hentry⟩

theorem be16Response_ok_of_length {buf : List Byte} (h : buf.length = 2) :
    ∃ resp, be16Response buf = .ok resp := by
  obtain ⟨hi, lo, rfl⟩ := List.length_eq_two.mp h
  exact ⟨_, be16Response_pair hi lo⟩

/-- Legality (R63, R64) is all that a rule's reads need to stay in range: six bytes for TH_DECODE, two for BE16, a selector up to 3 for CMD_FRAME. The other rules read within any buffer. -/
theorem ruleResponse_ok (t : CmdTable) {i : Instr} (h : legal i = true) :
    ∃ resp, ruleResponse t i = .ok resp := by
  rw [legal_eq_wellFormed] at h
  cases i with
  | pmDecode _ buf => exact pmResponse_ok buf
  | co2Decode _ buf => exact co2Response_ok buf
  | thDecode _ buf => exact thResponse_ok_of_length _ (of_decide_eq_true (Bool.and_eq_true_iff.mp h).2)
  | cmdFrame arg _ => exact cmdResponse_ok_of_le t (of_decide_eq_true (Bool.and_eq_true_iff.mp h).1)
  | be16 _ buf => exact be16Response_ok_of_length (of_decide_eq_true (Bool.and_eq_true_iff.mp h).2)
  | sum16 _ buf => exact ⟨_, sum16Response_eq buf⟩
  | crc8 _ buf => exact ⟨_, crc8Response_eq buf⟩

/-- Every operation answers, and the command table and the request fix the response (R23, R200). -/
theorem exec_answers (t : CmdTable) (i : Instr) :
    ∃ resp, ∀ s : State, s.cmd = t → exec i s = .next (s.deliver i.unit i.toRequest resp) := by
  cases hlegal : legal i with
  | false => exact ⟨illegalResponse i, fun s _ => by rw [exec_eq_serve, serve_of_illegal hlegal]⟩
  | true =>
    obtain ⟨resp, hresp⟩ := ruleResponse_ok t hlegal
    exact ⟨resp, fun s hs => by rw [exec_eq_serve, hs, hresp, serve_of_legal hlegal]⟩

/-- Settles O34, from the one thing an operation can do: deliver a response of its unit. -/
theorem operationsChangeOnlyTheirUnit : Obligations.OperationsChangeOnlyTheirUnit := by
  intro i s t h
  obtain ⟨resp, rfl⟩ := exec_next h
  refine ⟨by simp, ⟨resp, by simp⟩, fun v hv => ?_, rfl, rfl, rfl, rfl⟩
  exact ⟨PerUnit.get_set_other _ _ hv, PerUnit.get_set_other _ _ hv⟩

/-- Settles O35: legality keeps every read of a rule in range, and an illegal request reads nothing. -/
theorem operationsNeverReadOutOfRange : Obligations.OperationsNeverReadOutOfRange := by
  intro i s
  obtain ⟨resp, hresp⟩ := exec_answers s.cmd i
  exact ⟨resp, hresp s rfl⟩

/-- Settles O38: the command table is the only part of the state that a response depends on. -/
theorem responseIsAFunctionOfTheRequest : Obligations.ResponseIsAFunctionOfTheRequest := by
  intro i s s' hcmd
  obtain ⟨resp, hresp⟩ := exec_answers s.cmd i
  exact ⟨resp, hresp s rfl, hresp s' hcmd.symm⟩

/-- Settles O26: six bytes with `arg` 0 are legal, and neither CRC check of the rule fails. -/
theorem thermalRequestAnswersTheSample : Obligations.ThermalRequestAnswersTheSample := by
  refine ⟨rfl, fun b0 b1 b3 b4 s => ?_⟩
  rw [exec_thDecode, thResponse_six, if_neg (not_not_intro rfl), if_neg (not_not_intro rfl)]
  exact serve_of_legal rfl

/-! ## Rounding to nearest, ties to even (R14) -/

theorem roundDiv_le_of_lt_mul {n d c : Nat} (h : n < d * c) : roundDiv n d ≤ c := by
  have hq : n / d < c := Nat.div_lt_of_lt_mul h
  unfold roundDiv
  split_ifs <;> omega

theorem le_roundDiv_of_mul_le {n d c : Nat} (hd : 0 < d) (h : c * d ≤ n) : c ≤ roundDiv n d := by
  have hq : c ≤ n / d := (Nat.le_div_iff_mul_le hd).mpr h
  unfold roundDiv
  split_ifs <;> omega

/-- The rounded quotient is at most half a unit off, and even when it is exactly half a unit off. -/
theorem roundDiv_error (n : Nat) {d : Nat} (hd : 0 < d) :
    2 * |(roundDiv n d * d : Int) - n| ≤ d ∧
      (2 * |(roundDiv n d * d : Int) - n| = d → roundDiv n d % 2 = 0) := by
  have hr : n % d < d := Nat.mod_lt n hd
  have hn : (n : Int) = (n / d : Nat) * d + (n % d : Nat) := by
    exact_mod_cast (Nat.div_add_mod' n d).symm
  have hdown : |((n / d : Nat) * d : Int) - n| = (n % d : Nat) := by
    rw [hn, sub_add_cancel_left, abs_neg, Nat.abs_cast]
  have hup : |((n / d + 1 : Nat) * d : Int) - n| = d - (n % d : Nat) := by
    rw [← abs_of_nonneg (show (0 : Int) ≤ d - (n % d : Nat) by omega)]
    congr 1
    rw [Nat.cast_add_one, add_one_mul]
    omega
  unfold roundDiv
  split_ifs with hbelow habove heven
  · rw [hdown]; omega
  · rw [hup]; omega
  · rw [hdown]; omega
  · rw [hup]; omega

/-- No other number of units is nearer than the rounded quotient, and it is even when another is equally near. -/
theorem roundDiv_nearest (n : Nat) {d k : Nat} (hd : 0 < d) (hk : k ≠ roundDiv n d) :
    |(roundDiv n d * d : Int) - n| ≤ |(k * d : Int) - n| ∧
      (|(roundDiv n d * d : Int) - n| = |(k * d : Int) - n| → roundDiv n d % 2 = 0) := by
  obtain ⟨hhalf, heven⟩ := roundDiv_error n hd
  have hgap : (d : Int) ≤ |(k * d : Int) - roundDiv n d * d| := by
    have hne : (1 : Int) ≤ |(k : Int) - roundDiv n d| := Int.one_le_abs (by omega)
    calc (d : Int) = 1 * d := (one_mul _).symm
      _ ≤ |(k : Int) - roundDiv n d| * d := by gcongr
      _ = |(k * d : Int) - roundDiv n d * d| := by rw [← sub_mul, abs_mul, Nat.abs_cast]
  have htri := abs_sub_le (k * d : Int) n (roundDiv n d * d)
  rw [abs_sub_comm (n : Int)] at htri
  exact ⟨by omega, fun heq => heven (by omega)⟩

@[simp] theorem pow2_eq (n : Nat) : pow2 n = 2 ^ n := rfl

/-- `2 ^ (log2 num - expGap num den)` is the power of two just below `num/den`, written without division. -/
theorem expGap_spec {num den : Nat} (hn : 0 < num) (hd : 0 < den) :
    den * 2 ^ num.log2 ≤ num * 2 ^ expGap num den ∧ num * 2 ^ expGap num den < den * 2 ^ (num.log2 + 1) := by
  have hn1 : 2 ^ num.log2 ≤ num := Nat.log2_self_le hn.ne'
  have hn2 : num < 2 ^ (num.log2 + 1) := Nat.lt_log2_self
  have hd1 : 2 ^ den.log2 ≤ den := Nat.log2_self_le hd.ne'
  have hd2 : den < 2 ^ (den.log2 + 1) := Nat.lt_log2_self
  unfold expGap
  split_ifs with h <;> simp only [pow2_eq] at h
  · constructor
    · calc den * 2 ^ num.log2 ≤ 2 ^ (den.log2 + 1) * num := by gcongr
        _ = num * 2 ^ (den.log2 + 1) := Nat.mul_comm _ _
    · rw [pow_succ, pow_succ, ← mul_assoc, ← mul_assoc]
      exact Nat.mul_lt_mul_of_pos_right h two_pos
  · refine ⟨not_lt.mp h, ?_⟩
    calc num * 2 ^ den.log2 < 2 ^ (num.log2 + 1) * 2 ^ den.log2 := by gcongr
      _ ≤ 2 ^ (num.log2 + 1) * den := by gcongr
      _ = den * 2 ^ (num.log2 + 1) := Nat.mul_comm _ _

theorem scaleUp_eq_zero_or_scaleDown_eq_zero (f : FpFormat) (num den : Nat) :
    scaleUp f num den = 0 ∨ scaleDown f num den = 0 := by
  unfold scaleUp scaleDown
  omega

theorem roundFrac_of_pos (f : FpFormat) (neg : Bool) {num : Nat} (hn : 0 < num) (den : Nat) :
    roundFrac f neg num den =
      ⟨neg, roundDiv (num * 2 ^ scaleUp f num den) (den * 2 ^ scaleDown f num den) * 2 ^ scaleDown f num den,
        2 ^ scaleUp f num den⟩ :=
  if_neg hn.ne'

/-- The unrounded number of units has no more bits than the significand. -/
theorem scaled_lt_pow_prec {f : FpFormat} (hf : 0 < f.prec) {num den : Nat} (hn : 0 < num) (hd : 0 < den) :
    num * 2 ^ scaleUp f num den < den * 2 ^ scaleDown f num den * 2 ^ f.prec := by
  obtain ⟨-, hgap⟩ := expGap_spec hn hd
  have hexp : scaleUp f num den + (num.log2 + 1) ≤ expGap num den + (scaleDown f num den + f.prec) := by
    unfold scaleUp scaleDown
    omega
  refine Nat.lt_of_mul_lt_mul_right (a := 2 ^ (num.log2 + 1)) ?_
  calc num * 2 ^ scaleUp f num den * 2 ^ (num.log2 + 1)
      = num * 2 ^ (scaleUp f num den + (num.log2 + 1)) := by rw [mul_assoc, ← pow_add]
    _ ≤ num * 2 ^ (expGap num den + (scaleDown f num den + f.prec)) := by gcongr; norm_num
    _ = num * 2 ^ expGap num den * 2 ^ (scaleDown f num den + f.prec) := by rw [pow_add, mul_assoc]
    _ < den * 2 ^ (num.log2 + 1) * 2 ^ (scaleDown f num den + f.prec) := by gcongr
    _ = den * 2 ^ scaleDown f num den * 2 ^ f.prec * 2 ^ (num.log2 + 1) := by ring

/-- Above the least normal value the unrounded number of units fills the significand. -/
theorem pow_prec_le_scaled {f : FpFormat} {num den : Nat} (hn : 0 < num) (hd : 0 < den)
    (hup : scaleUp f num den ≠ f.maxScale) :
    2 ^ (f.prec - 1) * (den * 2 ^ scaleDown f num den) ≤ num * 2 ^ scaleUp f num den := by
  obtain ⟨hgap, -⟩ := expGap_spec hn hd
  have hexp : scaleUp f num den + num.log2 = expGap num den + (scaleDown f num den + (f.prec - 1)) := by
    unfold scaleUp scaleDown at *
    omega
  refine Nat.le_of_mul_le_mul_right (c := 2 ^ num.log2) ?_ (by positivity)
  calc 2 ^ (f.prec - 1) * (den * 2 ^ scaleDown f num den) * 2 ^ num.log2
      = den * 2 ^ num.log2 * 2 ^ (scaleDown f num den + (f.prec - 1)) := by ring
    _ ≤ num * 2 ^ expGap num den * 2 ^ (scaleDown f num den + (f.prec - 1)) := by gcongr
    _ = num * 2 ^ scaleUp f num den * 2 ^ num.log2 := by rw [mul_assoc, ← pow_add, ← hexp, pow_add, mul_assoc]

/-- Settles O27: the scaled quotient fits the significand, and `roundDiv` takes the nearest whole number of units, ties to even. -/
theorem roundingIsNearestTiesToEven : Obligations.RoundingIsNearestTiesToEven := by
  intro f neg num den hf hn hd
  have hprec : 0 < f.prec := by rcases hf with rfl | rfl <;> decide
  have hden : 0 < den * 2 ^ scaleDown f num den := by positivity
  refine ⟨roundDiv (num * 2 ^ scaleUp f num den) (den * 2 ^ scaleDown f num den),
    scaleUp f num den, scaleDown f num den, roundFrac_of_pos f neg hn den,
    scaleUp_eq_zero_or_scaleDown_eq_zero f num den, Nat.min_le_right _ _,
    roundDiv_le_of_lt_mul (scaled_lt_pow_prec hprec hn hd), ?_, fun n hk => ?_⟩
  · by_cases hup : scaleUp f num den = f.maxScale
    · exact .inr hup
    · exact .inl (le_roundDiv_of_mul_le hden (pow_prec_le_scaled hn hd hup))
  · exact_mod_cast roundDiv_nearest _ hden hk

end Sys2Proof.Machine

/-! PROOFS for the statements of spec/10_state.md: the reset state and reset (R33, R230), the Idle/Busy cycle of a unit (R24), the units' independence (R25, R53), and the invariants that every step keeps. -/

namespace Sys2Proof.Machine

/-! ## One unit's view after each update -/

section Views

variable (s : State) (r : Request)

@[simp] theorem State.deliver_view_same (u : UnitId) (resp : Response) :
    (s.deliver u r resp).view u = ⟨.idle, s.waiting.get u, s.delivered.get u ++ [⟨r, resp⟩]⟩ := by
  simp [State.view]

theorem State.deliver_view_other (resp : Response) {u v : UnitId} (h : v ≠ u) : (s.deliver u r resp).view v = s.view v := by
  simp [State.view, PerUnit.get_set_other _ _ h]

@[simp] theorem State.accept_view_same (u : UnitId) (ws : List Request) :
    (s.accept u r ws).view u = ⟨.busy r, ws, s.delivered.get u⟩ := by
  simp [State.view]

theorem State.accept_view_other (ws : List Request) {u v : UnitId} (h : v ≠ u) : (s.accept u r ws).view v = s.view v := by
  simp [State.view, PerUnit.get_set_other _ _ h]

@[simp] theorem State.present_view_same (u : UnitId) :
    (s.present u r).view u = ⟨s.ustate.get u, s.waiting.get u ++ [r], s.delivered.get u⟩ := by
  simp [State.view]

theorem State.present_view_other {u v : UnitId} (h : v ≠ u) : (s.present u r).view v = s.view v := by
  simp [State.view, PerUnit.get_set_other _ _ h]

@[simp] theorem State.deliverInterface_view (resp : Response) (u : UnitId) :
    (s.deliverInterface r resp).view u = s.view u := rfl

@[simp] theorem State.resetEffect_view (u : UnitId) :
    s.resetEffect.view u = ⟨.idle, s.waiting.get u, s.delivered.get u⟩ := by
  simp [State.view]

end Views

/-- The requests a unit still owes an answer: the one it serves, then the waiting ones. -/
def UnitView.outstanding (v : UnitView) : List Request := v.ustate.request ++ v.waiting

/-- The requests a unit has answered, then those it owes an answer. -/
def UnitView.history (v : UnitView) : List Request := v.delivered.map (·.req) ++ v.outstanding

theorem State.history_eq (s : State) (u : UnitId) : s.history u = (s.view u).history :=
  List.append_assoc _ _ _

/-- A state is wired when its table is built and all that its units owe, and all that the host will issue, is as R60 and R62 say. -/
theorem wired_iff {s : State} :
    s.Wired ↔ s.cmd = CmdTable.built ∧ (∀ u, ∀ r ∈ (s.view u).outstanding, Addresses r u) ∧
      ∀ r, Event.host r ∈ s.schedule → r.buf.length ≤ 255 := by
  constructor
  · rintro ⟨htable, hheld, hwaits, hsched⟩
    refine ⟨htable, fun u r hr => ?_, hsched⟩
    rcases List.mem_append.mp hr with hserved | hwaiting
    · cases hu : s.ustate.get u with
      | idle => simp [State.view, hu, UState.request] at hserved
      | busy r' =>
        obtain rfl : r = r' := by simpa [State.view, hu, UState.request] using hserved
        exact hheld u r hu
    · exact hwaits u r hwaiting
  · rintro ⟨htable, howed, hsched⟩
    refine ⟨htable, fun u r hu => howed u r ?_, fun u r hr => howed u r (List.mem_append_right _ hr), hsched⟩
    simp [UnitView.outstanding, State.view, hu, UState.request]

/-! ## What each agent's move does -/

theorem Addresses.decodes {r : Request} {u : UnitId} (h : Addresses r u) :
    ∃ i, decodeRequest r = .ok i ∧ i.unit = u := by
  cases hd : decodeRequest r with
  | ok i => exact ⟨i, rfl, Option.some.inj ((unit_of_decodeRequest hd).symm.trans h.1)⟩
  | error e => exact absurd ((unit_of_decodeRequest_error hd).symm.trans h.1) nofun

theorem hostMove_of_unit {s : State} {r : Request} {u : UnitId} (h : r.unit = some u) :
    hostMove s r = s.present u r := by
  cases hd : decodeRequest r with
  | ok i =>
    obtain rfl : i.unit = u := Option.some.inj ((unit_of_decodeRequest hd).symm.trans h)
    simp [hostMove, hd]
  | error e => exact absurd ((unit_of_decodeRequest_error hd).symm.trans h) nofun

theorem hostMove_of_no_unit {s : State} {r : Request} (h : r.unit = none) :
    hostMove s r = s.deliverInterface r (raise .illegalRequest) := by
  cases hd : decodeRequest r with
  | ok i => exact absurd ((unit_of_decodeRequest hd).symm.trans h) nofun
  | error e => simp [hostMove, hd]

theorem hostMove_cmd_schedule (s : State) (r : Request) :
    (hostMove s r).cmd = s.cmd ∧ (hostMove s r).schedule = s.schedule := by
  cases h : r.unit with
  | none => rw [hostMove_of_no_unit h]; exact ⟨rfl, rfl⟩
  | some u => rw [hostMove_of_unit h]; exact ⟨rfl, rfl⟩

theorem hostMove_view_other {s : State} {r : Request} {u : UnitId} (h : r.unit ≠ some u) :
    (hostMove s r).view u = s.view u := by
  cases hr : r.unit with
  | none => rw [hostMove_of_no_unit hr, State.deliverInterface_view]
  | some v => rw [hostMove_of_unit hr, State.present_view_other _ _ (by rintro rfl; exact h hr)]

theorem unitMove_of_busy {s : State} {u : UnitId} {r : Request} {i : Instr} (hu : s.ustate.get u = .busy r)
    (hd : decodeRequest r = .ok i) : unitMove s u = exec i s := by
  simp only [unitMove, hu, hd]

theorem unitMove_of_busy_reserved {s : State} {u : UnitId} {r : Request} {e : DecodeError}
    (hu : s.ustate.get u = .busy r) (hd : decodeRequest r = .error e) :
    unitMove s u = .next ((s.dropRequest u).deliverInterface r (raise .illegalRequest)) := by
  simp only [unitMove, hu, hd]

theorem unitMove_of_idle_nil {s : State} {u : UnitId} (hu : s.ustate.get u = .idle) (hw : s.waiting.get u = []) :
    unitMove s u = .next s := by
  simp only [unitMove, hu, hw]

theorem unitMove_of_idle_cons {s : State} {u : UnitId} {r : Request} {ws : List Request}
    (hu : s.ustate.get u = .idle) (hw : s.waiting.get u = r :: ws) : unitMove s u = .next (s.accept u r ws) := by
  simp only [unitMove, hu, hw]

/-- A unit always has a move: every operation answers, and so does the interface for a request that names none (log 13). -/
theorem unitMove_answers (s : State) (u : UnitId) : ∃ t, unitMove s u = .next t := by
  cases hu : s.ustate.get u with
  | busy r =>
    cases hd : decodeRequest r with
    | ok i =>
      obtain ⟨resp, hresp⟩ := exec_answers s.cmd i
      exact ⟨_, (unitMove_of_busy hu hd).trans (hresp s rfl)⟩
    | error e => exact ⟨_, unitMove_of_busy_reserved hu hd⟩
  | idle =>
    cases hw : s.waiting.get u with
    | nil => exact ⟨_, unitMove_of_idle_nil hu hw⟩
    | cons r ws => exact ⟨_, unitMove_of_idle_cons hu hw⟩

theorem eventMove_answers (s : State) (e : Event) : ∃ t, eventMove s e = .next t := by
  cases e with
  | host r => exact ⟨_, rfl⟩
  | unit u => exact unitMove_answers s u
  | reset => exact ⟨_, rfl⟩

theorem unitMove_cmd_schedule {s t : State} {u : UnitId} (h : unitMove s u = .next t) :
    t.cmd = s.cmd ∧ t.schedule = s.schedule := by
  rcases unitMove_next h with ⟨r, i, -, -, hexec⟩ | ⟨r, e, -, -, rfl⟩ | ⟨-, -, rfl⟩ | ⟨r, ws, -, -, rfl⟩
  · obtain ⟨resp, rfl⟩ := exec_next hexec
    exact ⟨rfl, rfl⟩
  all_goals exact ⟨rfl, rfl⟩

theorem eventMove_cmd_schedule {s t : State} {e : Event} (h : eventMove s e = .next t) :
    t.cmd = s.cmd ∧ t.schedule = s.schedule := by
  cases e with
  | host r => cases h; exact hostMove_cmd_schedule s r
  | unit u => exact unitMove_cmd_schedule h
  | reset => cases h; exact ⟨rfl, rfl⟩

/-- In a wired state a Busy unit delivers one response by its request's operation, and the request alone fixes it (R24, R231). -/
theorem State.Wired.exec_held {s : State} (hs : s.Wired) {u : UnitId} {r : Request} (hu : s.ustate.get u = .busy r) :
    ∃ i resp, decodeRequest r = .ok i ∧
      ∀ s' : State, s'.cmd = CmdTable.built → exec i s' = .next (s'.deliver u r resp) := by
  obtain ⟨i, hd, rfl⟩ := (hs.held u r hu).decodes
  obtain ⟨resp, hresp⟩ := exec_answers CmdTable.built i
  exact ⟨i, resp, hd, fun s' hcmd => toRequest_of_decodeRequest hd ▸ hresp s' hcmd⟩

/-- R24's cycle as one unit sees it: a unit answers the request it serves, accepts the oldest presented one, or waits for one. -/
inductive UnitView.Move : UnitView → UnitView → Prop
  | answer (r : Request) (ws : List Request) (ds : List Delivery) (resp : Response) :
      Move ⟨.busy r, ws, ds⟩ ⟨.idle, ws, ds ++ [⟨r, resp⟩]⟩
  | accept (r : Request) (ws : List Request) (ds : List Delivery) : Move ⟨.idle, r :: ws, ds⟩ ⟨.busy r, ws, ds⟩
  | wait (ds : List Delivery) : Move ⟨.idle, [], ds⟩ ⟨.idle, [], ds⟩

theorem UnitView.Move.history_eq {v v' : UnitView} (h : v.Move v') : v'.history = v.history := by
  cases h <;> simp [UnitView.history, UnitView.outstanding, UState.request]

theorem UnitView.Move.outstanding_subset {v v' : UnitView} (h : v.Move v') : v'.outstanding ⊆ v.outstanding := by
  cases h <;> simp [UnitView.outstanding, UState.request]

/-- In a wired state a unit's move is one of the cycle, and no other unit's view changes. -/
theorem unitMove_views {s t : State} {u : UnitId} (hs : s.Wired) (h : unitMove s u = .next t) :
    (s.view u).Move (t.view u) ∧ ∀ v, v ≠ u → t.view v = s.view v := by
  cases hu : s.ustate.get u with
  | busy r =>
    obtain ⟨i, resp, hd, hexec⟩ := hs.exec_held hu
    rw [unitMove_of_busy hu hd, hexec s hs.table] at h
    cases h
    refine ⟨?_, fun v hv => s.deliver_view_other r resp hv⟩
    rw [State.deliver_view_same, State.view, hu]
    exact .answer ..
  | idle =>
    cases hw : s.waiting.get u with
    | nil =>
      rw [unitMove_of_idle_nil hu hw] at h
      cases h
      refine ⟨?_, fun _ _ => rfl⟩
      rw [State.view, hu, hw]
      exact .wait _
    | cons r ws =>
      rw [unitMove_of_idle_cons hu hw] at h
      cases h
      refine ⟨?_, fun v hv => s.accept_view_other r ws hv⟩
      rw [State.accept_view_same, State.view, hu, hw]
      exact .accept ..

/-- What a unit's move makes of the unit's view depends on that view alone (R25). -/
theorem unitMove_view_congr {s s' t t' : State} {u : UnitId} (hs : s.Wired) (hs' : s'.Wired)
    (hview : s.view u = s'.view u) (h : unitMove s u = .next t) (h' : unitMove s' u = .next t') :
    t.view u = t'.view u := by
  obtain ⟨hustate, hwaiting, hdelivered⟩ := UnitView.mk.inj hview
  cases hu : s.ustate.get u with
  | busy r =>
    obtain ⟨i, resp, hd, hexec⟩ := hs.exec_held hu
    rw [unitMove_of_busy hu hd, hexec s hs.table] at h
    rw [unitMove_of_busy (hustate ▸ hu) hd, hexec s' hs'.table] at h'
    cases h
    cases h'
    simp [hwaiting, hdelivered]
  | idle =>
    cases hw : s.waiting.get u with
    | nil =>
      rw [unitMove_of_idle_nil hu hw] at h
      rw [unitMove_of_idle_nil (hustate ▸ hu) (hwaiting ▸ hw)] at h'
      cases h
      cases h'
      exact hview
    | cons r ws =>
      rw [unitMove_of_idle_cons hu hw] at h
      rw [unitMove_of_idle_cons (hustate ▸ hu) (hwaiting ▸ hw)] at h'
      cases h
      cases h'
      simp [hdelivered]

/-! ## What a step does -/

theorem step_of_no_schedule {s : State} {u : UnitId} (h : s.schedule = []) (hu : s.firstEnabled = some u) :
    step s = unitMove s u := by
  simp only [step, advance, h, hu]

/-- A step is no move or one event's move, on a state that differs in its schedule at most; a request the host issues is a scheduled one. -/
theorem step_next_event {s t : State} (h : step s = .next t) :
    t = s ∨ ∃ e rest, eventMove { s with schedule := rest } e = .next t ∧ rest ⊆ s.schedule ∧
      ∀ r, e = .host r → .host r ∈ s.schedule := by
  rcases step_next h with ⟨e, rest, hsched, hmove⟩ | ⟨u, hsched, -, hmove⟩ | ⟨-, -, rfl⟩
  · refine .inr ⟨e, rest, hmove, ?_, ?_⟩
    · rw [hsched]; exact List.subset_cons_self ..
    · rintro r rfl; rw [hsched]; exact List.mem_cons_self
  · exact .inr ⟨.unit u, s.schedule, hmove, List.Subset.refl _, nofun⟩
  · exact .inl rfl

theorem step_keeps_cmd {s t : State} (h : step s = .next t) : t.cmd = s.cmd := by
  rcases step_next_event h with rfl | ⟨e, rest, hmove, -, -⟩
  · rfl
  · exact (eventMove_cmd_schedule hmove).1

/-! ## Wired states -/

theorem State.Wired.of_outstanding_subset {s t : State} (hs : s.Wired) (hcmd : t.cmd = s.cmd)
    (hsched : t.schedule ⊆ s.schedule) (hout : ∀ u, (t.view u).outstanding ⊆ (s.view u).outstanding) : t.Wired := by
  obtain ⟨htable, howed, hissued⟩ := wired_iff.mp hs
  exact wired_iff.mpr ⟨hcmd.trans htable, fun u r hr => howed u r (hout u hr), fun r hr => hissued r (hsched hr)⟩

theorem State.Wired.with_schedule {s : State} (hs : s.Wired) {es : List Event} (h : es ⊆ s.schedule) :
    ({ s with schedule := es } : State).Wired :=
  hs.of_outstanding_subset rfl h fun _ => List.Subset.refl _

theorem State.Wired.tail {s : State} (hs : s.Wired) {e : Event} {rest : List Event} (h : s.schedule = e :: rest) :
    ({ s with schedule := rest } : State).Wired :=
  hs.with_schedule (h ▸ List.subset_cons_self ..)

theorem State.Wired.unitMove {s t : State} {u : UnitId} (hs : s.Wired) (h : unitMove s u = .next t) : t.Wired := by
  obtain ⟨hcmd, hsched⟩ := unitMove_cmd_schedule h
  obtain ⟨hmove, hother⟩ := unitMove_views hs h
  refine hs.of_outstanding_subset hcmd (hsched ▸ List.Subset.refl _) fun v => ?_
  by_cases hv : v = u
  · subst hv; exact hmove.outstanding_subset
  · rw [hother v hv]; exact List.Subset.refl _

theorem State.Wired.hostMove {s : State} {r : Request} (hs : s.Wired) (hr : r.buf.length ≤ 255) :
    (hostMove s r).Wired := by
  obtain ⟨htable, howed, hissued⟩ := wired_iff.mp hs
  obtain ⟨hcmd, hsched⟩ := hostMove_cmd_schedule s r
  refine wired_iff.mpr ⟨hcmd.trans htable, fun u r' hr' => ?_, hsched ▸ hissued⟩
  by_cases hu : r.unit = some u
  · rw [hostMove_of_unit hu, State.present_view_same, UnitView.outstanding, ← List.append_assoc] at hr'
    rcases List.mem_append.mp hr' with hold | hnew
    · exact howed u r' hold
    · obtain rfl := List.mem_singleton.mp hnew
      exact ⟨hu, hr⟩
  · rw [hostMove_view_other hu] at hr'
    exact howed u r' hr'

theorem State.Wired.resetEffect {s : State} (hs : s.Wired) : s.resetEffect.Wired :=
  hs.of_outstanding_subset rfl (List.Subset.refl _) fun u => by
    rw [State.resetEffect_view]; exact List.subset_append_right _ _

/-- Settles O50: only a request the host issues is new to a unit, and it goes to the unit it names. -/
theorem stepKeepsStateWired : Obligations.StepKeepsStateWired := by
  intro s t hs h
  rcases step_next_event h with rfl | ⟨e, rest, hmove, hrest, hissued⟩
  · exact hs
  · have hs' := hs.with_schedule hrest
    cases e with
    | host r => cases hmove; exact hs'.hostMove (hs.schedule r (hissued r rfl))
    | unit u => exact hs'.unitMove hmove
    | reset => cases hmove; exact hs'.resetEffect

theorem reset_isWired : State.reset.Wired :=
  wired_iff.mpr ⟨rfl, fun u r hr => by simp [State.reset, State.view, UnitView.outstanding, UState.request] at hr,
    fun r hr => absurd hr List.not_mem_nil⟩

/-! ## A unit's history -/

theorem unitMove_history {s t : State} {v : UnitId} (hs : s.Wired) (h : unitMove s v = .next t) (u : UnitId) :
    t.history u = s.history u := by
  obtain ⟨hmove, hother⟩ := unitMove_views hs h
  rw [State.history_eq, State.history_eq]
  by_cases hu : u = v
  · subst hu; exact hmove.history_eq
  · rw [hother u hu]

theorem hostMove_history (s : State) (r : Request) (u : UnitId) :
    (hostMove s r).history u = s.history u ++ if r.unit = some u then [r] else [] := by
  rw [State.history_eq, State.history_eq]
  by_cases hu : r.unit = some u
  · rw [if_pos hu, hostMove_of_unit hu, State.present_view_same]
    simp [State.view, UnitView.history, UnitView.outstanding]
  · rw [if_neg hu, hostMove_view_other hu, List.append_nil]

theorem resetEffect_history (s : State) (u : UnitId) :
    s.resetEffect.history u = (s.delivered.get u).map (·.req) ++ s.waiting.get u := by
  rw [State.history_eq, State.resetEffect_view]
  rfl

/-- Settles O47: a move of a unit passes requests along its history, the host adds at the end, and reset takes out the one in flight. -/
theorem requestsAreAnsweredInOrder : Obligations.RequestsAreAnsweredInOrder := by
  intro s t u hs h
  refine ⟨fun r rest hsched => ?_, fun rest hsched => ?_, fun v rest hsched => ?_, fun hsched => ?_⟩
  · rw [step_of_schedule hsched] at h
    cases h
    exact hostMove_history _ r u
  · rw [step_of_schedule hsched] at h
    cases h
    exact resetEffect_history _ u
  · rw [step_of_schedule hsched] at h
    exact unitMove_history (hs.tail hsched) h u
  · rcases step_next h with ⟨e, rest, hcons, -⟩ | ⟨v, -, -, hmove⟩ | ⟨-, -, rfl⟩
    · exact absurd (hsched.symm.trans hcons) nofun
    · exact unitMove_history hs hmove u
    · rfl

/-! ## PM samples -/

/-- The rule's success sample is that of the frame at the first marker: its length and its sum were checked (R123, R126). -/
theorem pmResponse_sample_valid {buf : List Byte} {resp : Response} {p : PmSample} (h : pmResponse buf = .ok resp)
    (hp : resp.payload = .pmSample p) : p.ValidIn buf := by
  rcases scan_cases buf with ⟨i, -, hfirst⟩ | ⟨-, hnone⟩
  · rw [pmResponse_of_firstMarker hfirst] at h
    split_ifs at h with hshort hsum
    · cases h; cases hp
    · cases h
      cases hp
      exact ⟨i, hfirst, by have := markerAt_lt hfirst.1; omega, sampleAt_word buf i,
        (sampleAt_checksum buf i).trans hsum.symm⟩
    · cases h; cases hp
  · rw [pmResponse_of_no_marker hnone] at h
    cases h
    cases hp

theorem co2Response_ne_pmSample {buf : List Byte} {resp : Response} (h : co2Response buf = .ok resp) (p : PmSample) :
    resp.payload ≠ .pmSample p := by
  by_cases hlen : buf.length = 7
  · rw [co2Response_of_length hlen] at h; cases h; exact nofun
  · rw [co2Response_of_other_length hlen] at h; cases h; exact nofun

theorem thResponse_ne_pmSample {c : Config.Precision} {buf : List Byte} {resp : Response} (hlen : buf.length = 6)
    (h : thResponse c buf = .ok resp) (p : PmSample) : resp.payload ≠ .pmSample p := by
  match buf, hlen with
  | [b0, b1, b2, b3, b4, b5], _ =>
    rw [thResponse_six] at h
    split_ifs at h <;> cases h <;> exact nofun

theorem cmdResponse_ne_pmSample {t : CmdTable} {arg : Nibble} {resp : Response} (hle : arg.toNat ≤ 3)
    (h : cmdResponse t arg = .ok resp) (p : PmSample) : resp.payload ≠ .pmSample p := by
  obtain ⟨bs, hentry, -⟩ := readCmd_of_le t hle
  rw [cmdResponse_of_entry hentry] at h
  cases h
  exact nofun

theorem be16Response_ne_pmSample {buf : List Byte} {resp : Response} (hlen : buf.length = 2)
    (h : be16Response buf = .ok resp) (p : PmSample) : resp.payload ≠ .pmSample p := by
  obtain ⟨hi, lo, rfl⟩ := List.length_eq_two.mp hlen
  rw [be16Response_pair] at h
  cases h
  exact nofun

/-- Of the seven rules PM_DECODE's alone gives a sample, and a valid one. -/
theorem ruleResponse_sample_valid {t : CmdTable} {i : Instr} {resp : Response} {p : PmSample} (hlegal : legal i = true)
    (h : ruleResponse t i = .ok resp) (hp : resp.payload = .pmSample p) : p.ValidIn i.buf := by
  rw [legal_eq_wellFormed] at hlegal
  cases i with
  | pmDecode _ buf => exact pmResponse_sample_valid h hp
  | co2Decode _ buf => exact absurd hp (co2Response_ne_pmSample h p)
  | thDecode _ buf => exact absurd hp (thResponse_ne_pmSample (of_decide_eq_true (Bool.and_eq_true_iff.mp hlegal).2) h p)
  | cmdFrame arg _ => exact absurd hp (cmdResponse_ne_pmSample (of_decide_eq_true (Bool.and_eq_true_iff.mp hlegal).1) h p)
  | be16 _ buf => exact absurd hp (be16Response_ne_pmSample (of_decide_eq_true (Bool.and_eq_true_iff.mp hlegal).2) h p)
  | sum16 _ buf => cases (sum16Response_eq buf).symm.trans h; cases hp
  | crc8 _ buf => cases (crc8Response_eq buf).symm.trans h; cases hp

theorem illegalResponse_ne_pmSample (i : Instr) (p : PmSample) : (illegalResponse i).payload ≠ .pmSample p := by
  cases i <;> exact nofun

/-- An operation's one delivery carries a sample only of a valid frame in its own buffer. -/
theorem exec_sample_valid {i : Instr} {s t : State} (h : exec i s = .next t) :
    ∃ resp, t = s.deliver i.unit i.toRequest resp ∧ ∀ p, resp.payload = .pmSample p → p.ValidIn i.buf := by
  rw [exec_eq_serve] at h
  cases hlegal : legal i with
  | false =>
    rw [serve_of_illegal hlegal] at h
    cases h
    exact ⟨_, rfl, fun p hp => absurd hp (illegalResponse_ne_pmSample i p)⟩
  | true =>
    obtain ⟨resp, hresp⟩ := ruleResponse_ok s.cmd hlegal
    rw [hresp, serve_of_legal hlegal] at h
    cases h
    exact ⟨resp, rfl, fun p hp => ruleResponse_sample_valid hlegal hresp hp⟩

theorem State.SamplesValid.of_delivered {s t : State} (hs : s.SamplesValid) (h : t.delivered = s.delivered) :
    t.SamplesValid := by
  intro u d p hd
  rw [h] at hd
  exact hs u d p hd

theorem State.SamplesValid.deliver {s : State} (hs : s.SamplesValid) {u : UnitId} {r : Request} {resp : Response}
    (hresp : ∀ p, resp.payload = .pmSample p → p.ValidIn r.buf) : (s.deliver u r resp).SamplesValid := by
  intro v d p hd hp
  rw [State.deliver_delivered, PerUnit.get_set] at hd
  split_ifs at hd
  · rcases List.mem_append.mp hd with hold | hnew
    · exact hs u d p hold hp
    · obtain rfl := List.mem_singleton.mp hnew
      exact hresp p hp
  · exact hs v d p hd hp

theorem hostMove_delivered (s : State) (r : Request) : (hostMove s r).delivered = s.delivered := by
  cases h : r.unit with
  | none => rw [hostMove_of_no_unit h]; rfl
  | some u => rw [hostMove_of_unit h]; rfl

theorem State.SamplesValid.unitMove {s t : State} {u : UnitId} (hs : s.SamplesValid) (h : unitMove s u = .next t) :
    t.SamplesValid := by
  rcases unitMove_next h with ⟨r, i, -, -, hexec⟩ | ⟨r, e, -, -, rfl⟩ | ⟨-, -, rfl⟩ | ⟨r, ws, -, -, rfl⟩
  · obtain ⟨resp, rfl, hresp⟩ := exec_sample_valid hexec
    exact hs.deliver hresp
  · exact hs.of_delivered rfl
  · exact hs
  · exact hs.of_delivered rfl

/-- Settles O53: only an operation adds to a unit's deliveries, and PM_DECODE alone answers a sample. -/
theorem stepKeepsPmSamplesValid : Obligations.StepKeepsPmSamplesValid := by
  intro s t hs h
  rcases step_next_event h with rfl | ⟨e, rest, hmove, -, -⟩
  · exact hs
  · have hs' : ({ s with schedule := rest } : State).SamplesValid := hs.of_delivered rfl
    cases e with
    | host r => cases hmove; exact hs'.of_delivered (hostMove_delivered _ r)
    | unit u => exact hs'.unitMove hmove
    | reset => cases hmove; exact hs'.of_delivered rfl

/-! ## The cycle and the independence of the units -/

/-- Settles O43: each kind of move by its own equation. -/
theorem unitsFollowTheIdleBusyCycle : Obligations.UnitsFollowTheIdleBusyCycle := by
  intro s u hs
  refine ⟨fun r ws rest hsched hu hw => ?_, fun r rest hsched hu => ?_, fun r r' rest hsched hr _ => ?_,
    fun t h => step_keeps_cmd h⟩
  · exact ⟨_, (step_of_schedule hsched).trans (unitMove_of_idle_cons hu hw), by simp, by simp, rfl, rfl⟩
  · obtain ⟨i, resp, hd, hexec⟩ := hs.exec_held hu
    have hrun := hexec { s with schedule := rest } hs.table
    have hstep : step s = exec i { s with schedule := rest } :=
      (step_of_schedule hsched).trans (unitMove_of_busy hu hd)
    exact ⟨_, i, resp, hd, hrun, hstep.trans hrun, by simp, by simp, rfl⟩
  · refine ⟨_, step_of_schedule hsched, ?_⟩
    rw [hostMove_of_unit hr]
    exact ⟨rfl, by simp, rfl⟩

theorem step_view_of_not_concerns {s t : State} {u : UnitId} {e : Event} {rest : List Event} (hs : s.Wired)
    (hsched : s.schedule = e :: rest) (he : e.concerns u = false) (h : step s = .next t) : t.view u = s.view u := by
  rw [step_of_schedule hsched] at h
  cases e with
  | host r => cases h; exact hostMove_view_other (of_decide_eq_false he)
  | unit v => exact (unitMove_views (hs.tail hsched) h).2 u (Ne.symm (of_decide_eq_false he))
  | reset => cases he

/-- An event about a unit makes of the unit's view what that view alone decides. -/
theorem step_view_congr {s s' t t' : State} {u : UnitId} {e : Event} {rest rest' : List Event} (hs : s.Wired)
    (hs' : s'.Wired) (hsched : s.schedule = e :: rest) (hsched' : s'.schedule = e :: rest')
    (he : e.concerns u = true) (hview : s.view u = s'.view u) (h : step s = .next t) (h' : step s' = .next t') :
    t.view u = t'.view u := by
  obtain ⟨hustate, hwaiting, hdelivered⟩ := UnitView.mk.inj hview
  rw [step_of_schedule hsched] at h
  rw [step_of_schedule hsched'] at h'
  cases e with
  | host r =>
    cases h
    cases h'
    rw [hostMove_of_unit (of_decide_eq_true he), hostMove_of_unit (of_decide_eq_true he)]
    simp [hustate, hwaiting, hdelivered]
  | unit v =>
    obtain rfl : v = u := of_decide_eq_true he
    exact unitMove_view_congr (hs.tail hsched) (hs'.tail hsched') hview h h'
  | reset =>
    cases h
    cases h'
    simp [hwaiting, hdelivered]

/-- Settles O44: a unit's move is an event about that unit and no other. -/
theorem unitsAreIndependent : Obligations.UnitsAreIndependent :=
  ⟨fun _ _ _ _ _ hs hv hsched h => step_view_of_not_concerns hs hsched (decide_eq_false hv.symm) h,
    fun _ _ _ _ _ _ _ hs hs' hsched hsched' hview h h' =>
      step_view_congr hs hs' hsched hsched' (decide_eq_true rfl) hview h h'⟩

/-- A wired state with an event scheduled steps to a wired state that has the rest of the schedule. -/
theorem State.Wired.step_of_cons {s : State} {e : Event} {rest : List Event} (hs : s.Wired)
    (hsched : s.schedule = e :: rest) : ∃ t, step s = .next t ∧ t.Wired ∧ t.schedule = rest := by
  obtain ⟨t, hmove⟩ := eventMove_answers { s with schedule := rest } e
  have hstep := (step_of_schedule hsched).trans hmove
  exact ⟨t, hstep, stepKeepsStateWired s t hs hstep, (eventMove_cmd_schedule hmove).2⟩

theorem run_succ_of_step (M : Host.Core) {s t : M.State} (h : M.step s = .next t) (k : Nat) :
    M.run (k + 1) s = M.run k t := by
  rw [Host.Core.run, h]

/-- Two runs, one over a schedule and one over its events about `u`, keep `u`'s view the same in both. -/
theorem run_filter_view (u : UnitId) (es : List Event) : ∀ {s s' : State}, s.Wired → s'.Wired → s.schedule = es →
    s'.schedule = es.filter (Event.concerns u) → s.view u = s'.view u →
    ∃ t t' : State, Host.Core.run Sys2Proof.core es.length s = .next t ∧
      Host.Core.run Sys2Proof.core (es.filter (Event.concerns u)).length s' = .next t' ∧ t.view u = t'.view u := by
  induction es with
  | nil => intro s s' _ _ _ _ hview; exact ⟨s, s', rfl, rfl, hview⟩
  | cons e es ih =>
    intro s s' hs hs' hsched hsched' hview
    obtain ⟨t, hstep, ht, htes⟩ := hs.step_of_cons hsched
    rw [List.length_cons, run_succ_of_step Sys2Proof.core hstep]
    cases he : e.concerns u with
    | true =>
      rw [List.filter_cons_of_pos he] at hsched' ⊢
      obtain ⟨t', hstep', ht', htes'⟩ := hs'.step_of_cons hsched'
      rw [List.length_cons, run_succ_of_step Sys2Proof.core hstep']
      exact ih ht ht' htes htes' (step_view_congr hs hs' hsched hsched' he hview hstep hstep')
    | false =>
      rw [List.filter_cons_of_neg (by simp [he])] at hsched' ⊢
      exact ih ht hs' htes hsched' ((step_view_of_not_concerns hs hsched he hstep).trans hview)

/-- Settles O46, by induction on the schedule: the two runs agree on the unit's view all along. -/
theorem interleavingDoesNotChangeResponses : Obligations.InterleavingDoesNotChangeResponses := fun _ u hs =>
  run_filter_view u _ hs (hs.with_schedule (List.filter_subset_self _)) rfl rfl rfl

/-! ## Reset and the next move -/

/-- Settles O39: each unit's component of the reset state, and R190's frames read out of the built table. -/
theorem resetStateIsIdle : Obligations.ResetStateIsIdle :=
  ⟨fun u => PerUnit.get_replicate _ u, rfl, rfl, rfl, rfl⟩

/-- Settles O40: the step is the reset effect, which writes the interface states alone. -/
theorem resetEventDropsRequestsInFlight : Obligations.ResetEventDropsRequestsInFlight := fun _ _ hsched =>
  ⟨_, step_of_schedule hsched, fun u => PerUnit.get_replicate _ u, rfl, rfl, rfl, rfl, rfl⟩

/-- Settles O51: nothing is held, waits, is scheduled or was delivered at reset. -/
theorem resetStateIsWired : Obligations.ResetStateIsWired := by
  have hnone : ∀ u, State.reset.delivered.get u = [] := fun u => PerUnit.get_replicate _ u
  refine ⟨reset_isWired, ⟨fun u d hd => ?_, fun d hd => absurd hd List.not_mem_nil⟩, fun u d p hd => ?_⟩
  · exact absurd (hnone u ▸ hd) List.not_mem_nil
  · exact absurd (hnone u ▸ hd) List.not_mem_nil

/-- Bytes that decode with none left over are the whole buffer of the request. -/
theorem decodeRequest_of_decode {w : Word16} {data : List Byte} {i : Instr} (h : decode w data = .ok (i, [])) :
    decodeRequest ⟨wordOp w, wordArg w, data⟩ = .ok i := by
  unfold decode parseRequest at h
  split at h
  · cases h
  · rename_i r rest hparse
    split_ifs at hparse
    cases hparse
    split at h
    · cases h
    · rename_i j hd
      obtain ⟨rfl, hrest⟩ := Prod.mk.inj (Except.ok.inj h)
      rwa [List.take_of_length_le (List.drop_eq_nil_iff.mp hrest)] at hd

/-- Settles O41: the decoded word is the request the unit holds, and a Busy unit's move is `exec` of it. -/
theorem stepRunsTheHeldRequest : Obligations.StepRunsTheHeldRequest := fun _ _ _ _ _ hdec hu =>
  have hd := decodeRequest_of_decode hdec
  ⟨fun _ hsched => (step_of_schedule hsched).trans (unitMove_of_busy hu hd),
    fun hsched hfirst => (step_of_no_schedule hsched hfirst).trans (unitMove_of_busy hu hd)⟩

theorem decodeRequest_tableRequest {nbits w : Nat} {i : Instr} (h : decodeTableWord nbits w = some i) :
    decodeRequest (tableRequest nbits w) = .ok i := by
  unfold decodeTableWord at h
  split at h
  · rename_i j hdec
    cases h
    exact decodeRequest_of_decode hdec
  · cases h
  · cases h

theorem withFetchWord_of_decode {s : State} {nbits w : Nat} {i : Instr} (h : decodeTableWord nbits w = some i) :
    s.withFetchWord nbits w = { s with
      ustate := s.ustate.set i.unit (.busy i.toRequest)
      schedule := .unit i.unit :: s.schedule } := by
  have hd := decodeRequest_tableRequest h
  rw [State.withFetchWord, State.loadWord, unit_of_decodeRequest hd, toRequest_of_decodeRequest hd]

/-- Settles O42: the placed word makes its unit Busy and puts that unit's move first. -/
theorem placedWordRunsNext : Obligations.PlacedWordRunsNext := by
  intro s nbits w i h
  rw [withFetchWord_of_decode h, step_of_schedule rfl]
  exact unitMove_of_busy (PerUnit.get_set_same _ _ _) (decodeRequest_toRequest i)

end Sys2Proof.Machine

/-! PROOFS for the statements of spec/20_memory.md: moves of two different units commute (R53). -/

namespace Sys2Proof.Machine

/-- A state is what its units see, together with what no unit sees. -/
theorem State.ext_view {s t : State} (hview : ∀ u, s.view u = t.view u)
    (hiface : s.ifaceDelivered = t.ifaceDelivered) (hcmd : s.cmd = t.cmd) (hsched : s.schedule = t.schedule) :
    s = t := by
  have hustate : s.ustate = t.ustate := PerUnit.ext_get fun u => congrArg UnitView.ustate (hview u)
  have hwaiting : s.waiting = t.waiting := PerUnit.ext_get fun u => congrArg UnitView.waiting (hview u)
  have hdelivered : s.delivered = t.delivered := PerUnit.ext_get fun u => congrArg UnitView.delivered (hview u)
  cases s
  cases t
  simp_all only

/-- In a wired state every held request names an operation, so the interface answers nothing (log 13). -/
theorem unitMove_ifaceDelivered {s t : State} {u : UnitId} (hs : s.Wired) (h : unitMove s u = .next t) :
    t.ifaceDelivered = s.ifaceDelivered := by
  rcases unitMove_next h with ⟨r, i, -, -, hexec⟩ | ⟨r, e, hu, hd, -⟩ | ⟨-, -, rfl⟩ | ⟨r, ws, -, -, rfl⟩
  · obtain ⟨resp, rfl⟩ := exec_next hexec
    rfl
  · obtain ⟨i, hi, -⟩ := (hs.held u r hu).decodes
    exact absurd (hd.symm.trans hi) nofun
  · rfl
  · rfl

theorem step_unit_ifaceDelivered {s t : State} {u : UnitId} {rest : List Event} (hs : s.Wired)
    (hsched : s.schedule = .unit u :: rest) (h : step s = .next t) : t.ifaceDelivered = s.ifaceDelivered := by
  rw [step_of_schedule hsched] at h
  exact (unitMove_ifaceDelivered (hs.tail hsched) h :)

/-- The same event makes equal views of a unit equal again, whether it is about the unit or not. -/
theorem step_same_event_view {s s' t t' : State} {w : UnitId} {e : Event} {rest rest' : List Event} (hs : s.Wired)
    (hs' : s'.Wired) (hsched : s.schedule = e :: rest) (hsched' : s'.schedule = e :: rest')
    (hview : s.view w = s'.view w) (h : step s = .next t) (h' : step s' = .next t') : t.view w = t'.view w := by
  cases he : e.concerns w with
  | true => exact step_view_congr hs hs' hsched hsched' he hview h h'
  | false =>
    rw [step_view_of_not_concerns hs hsched he h, step_view_of_not_concerns hs' hsched' he h', hview]

/-- Two steps in a row from a wired state, with the events they take. -/
structure TwoMoves (e f : Event) (rest : List Event) (s m t : State) : Prop where
  wired         : s.Wired
  wired_mid     : m.Wired
  schedule      : s.schedule = e :: f :: rest
  schedule_mid  : m.schedule = f :: rest
  schedule_last : t.schedule = rest
  first         : step s = .next m
  second        : step m = .next t

theorem State.Wired.twoMoves {s : State} {e f : Event} {rest : List Event} (hs : s.Wired)
    (hsched : s.schedule = e :: f :: rest) : ∃ m t, TwoMoves e f rest s m t := by
  obtain ⟨m, hfirst, hm, hmsched⟩ := hs.step_of_cons hsched
  obtain ⟨t, hsecond, -, htsched⟩ := hm.step_of_cons hmsched
  exact ⟨m, t, hs, hm, hsched, hmsched, htsched, hfirst, hsecond⟩

theorem TwoMoves.run {e f : Event} {rest : List Event} {s m t : State} (h : TwoMoves e f rest s m t) :
    Host.Core.run Sys2Proof.core 2 s = .next t := by
  rw [run_succ_of_step Sys2Proof.core h.first, run_succ_of_step Sys2Proof.core h.second]
  rfl

theorem TwoMoves.cmd {e f : Event} {rest : List Event} {s m t : State} (h : TwoMoves e f rest s m t) :
    t.cmd = s.cmd :=
  (step_keeps_cmd h.second).trans (step_keeps_cmd h.first)

theorem TwoMoves.ifaceDelivered {u v : UnitId} {rest : List Event} {s m t : State}
    (h : TwoMoves (.unit u) (.unit v) rest s m t) : t.ifaceDelivered = s.ifaceDelivered :=
  (step_unit_ifaceDelivered h.wired_mid h.schedule_mid h.second).trans
    (step_unit_ifaceDelivered h.wired h.schedule h.first)

/-- A unit that `f` is not about sees `e` alone, whichever of the two comes first. -/
theorem TwoMoves.view_swap {e f : Event} {rest rest' : List Event} {s s' m m' t t' : State} {w : UnitId}
    (h : TwoMoves e f rest s m t) (h' : TwoMoves f e rest' s' m' t') (hview : s.view w = s'.view w)
    (hf : f.concerns w = false) : t.view w = t'.view w := by
  have hmid : s.view w = m'.view w :=
    hview.trans (step_view_of_not_concerns h'.wired h'.schedule hf h'.first).symm
  calc t.view w = m.view w := step_view_of_not_concerns h.wired_mid h.schedule_mid hf h.second
    _ = t'.view w := step_same_event_view h.wired h'.wired_mid h.schedule h'.schedule_mid hmid h.first h'.second

/-- Settles O45: every unit is a stranger to one of the two moves, so it sees the same in both orders, and no move of a unit writes anything else. -/
theorem differentUnitsCommute : Obligations.DifferentUnitsCommute := by
  intro s u v rest hs huv hsched
  have hs' : ({ s with schedule := .unit v :: .unit u :: rest } : State).Wired :=
    hs.with_schedule (hsched ▸ (List.Perm.swap ..).subset)
  obtain ⟨m, t, h⟩ := hs.twoMoves hsched
  obtain ⟨m', t', h'⟩ := hs'.twoMoves rfl
  have hviews : ∀ w, t.view w = t'.view w := fun w => by
    by_cases hw : v = w
    · exact (h'.view_swap h rfl (decide_eq_false (hw ▸ huv))).symm
    · exact h.view_swap h' rfl (decide_eq_false hw)
  have heq : t = t' := State.ext_view hviews (h.ifaceDelivered.trans h'.ifaceDelivered.symm)
    (h.cmd.trans h'.cmd.symm) (h.schedule_last.trans h'.schedule_last.symm)
  exact ⟨t, h.run, heq ▸ h'.run⟩

end Sys2Proof.Machine

/-! PROOFS for the statements of spec/30_encoding.md: the decoder and the encoder are inverses (R60, R61, R67), the legality table (R81), and what every response is (R65, R70 to R72). -/

namespace Sys2Proof

/-! ## The request word -/

/-- The `len` field of a request word as a byte. -/
def lenByte (w : Word16) : Byte := w.extractLsb' 8 8

theorem wordLen_eq_toNat (w : Word16) : wordLen w = (lenByte w).toNat := rfl

/-- A request word is its three fields (R60). -/
theorem mkWord_fields (w : Word16) : mkWord (wordOp w) (wordArg w) (wordLen w) = w := by
  apply BitVec.eq_of_getLsbD_eq
  intro k hk
  rw [getLsbD_mkWord, wordOp, wordArg, wordLen, BitVec.ofNat_toNat, BitVec.setWidth_eq]
  simp only [BitVec.getLsbD_extractLsb']
  split_ifs with hop harg
  · simp [hop]
  · simp [harg, show 4 + (k - 4) = k by omega]
  · simp [show k - 4 - 4 < 8 by omega, show 8 + (k - 4 - 4) = k by omega]

theorem word_eq_iff {v w : Word16} :
    v = w ↔ wordOp v = wordOp w ∧ wordArg v = wordArg w ∧ lenByte v = lenByte w := by
  constructor
  · rintro rfl
    exact ⟨rfl, rfl, rfl⟩
  · rintro ⟨hop, harg, hlen⟩
    rw [← mkWord_fields v, ← mkWord_fields w, hop, harg, wordLen_eq_toNat, wordLen_eq_toNat, hlen]

/-- A word agrees with a pattern under a mask when each field does. -/
theorem and_mask_eq_iff {w mask pattern : Word16} :
    w &&& mask = pattern ↔
      wordOp w &&& wordOp mask = wordOp pattern ∧ wordArg w &&& wordArg mask = wordArg pattern ∧
        lenByte w &&& lenByte mask = lenByte pattern := by
  rw [word_eq_iff]
  simp only [wordOp, wordArg, lenByte, BitVec.extractLsb'_and]

/-! ## Rows of the legality table (R81) -/

theorem LegalityRow.matches_iff {row : LegalityRow} {w : Word16} :
    row.matches w = true ↔
      (wordOp w &&& wordOp row.mask = wordOp row.pattern ∧ wordArg w &&& wordArg row.mask = wordArg row.pattern ∧
        lenByte w &&& lenByte row.mask = lenByte row.pattern) ∧
      (wordArg w).toNat ≤ row.argMax ∧ wordLen w ≤ row.lenMax := by
  simp only [LegalityRow.matches, Bool.and_eq_true, decide_eq_true_eq, and_mask_eq_iff, and_assoc]

theorem wordArg_le (w : Word16) : (wordArg w).toNat ≤ 15 := Nat.le_of_lt_succ (wordArg w).isLt

theorem wordLen_le (w : Word16) : wordLen w ≤ 255 := Nat.le_of_lt_succ (lenByte w).isLt

theorem wordLen_eq_iff {w : Word16} {n : Nat} (hn : n ≤ 255) : wordLen w = n ↔ lenByte w = BitVec.ofNat 8 n := by
  rw [wordLen_eq_toNat, ← BitVec.toNat_inj, BitVec.toNat_ofNat, Nat.mod_eq_of_lt (by omega)]

theorem lenByte_mkWord (op arg : Nibble) {n : Nat} (hn : n ≤ 255) : lenByte (mkWord op arg n) = BitVec.ofNat 8 n :=
  (wordLen_eq_iff hn).mp (wordLen_mkWord op arg hn)

section RowKinds

variable {w : Word16} {name : String} {op : Nibble} {n : Nat}

/-- A row that fixes `op` and `arg` and bounds `len`. -/
theorem matches_row_of_bounded_len :
    (⟨name, mkWord op 0 0, 0x00FF, 15, n⟩ : LegalityRow).matches w = true ↔
      wordOp w = op ∧ wordArg w = 0 ∧ wordLen w ≤ n := by
  have hmask : wordOp 0x00FF = BitVec.allOnes 4 ∧ wordArg 0x00FF = BitVec.allOnes 4 ∧ lenByte 0x00FF = 0#8 := by decide
  obtain ⟨hop, harg, hlen⟩ := hmask
  simp only [LegalityRow.matches_iff, hop, harg, hlen, BitVec.and_allOnes, BitVec.and_zero, wordOp_mkWord,
    wordArg_mkWord, lenByte_mkWord _ _ (Nat.zero_le 255), wordArg_le, and_true, true_and, and_assoc]

/-- A row that fixes `op` and `len` and bounds `arg`. -/
theorem matches_row_of_bounded_arg :
    (⟨name, mkWord op 0 0, 0xFF0F, n, 255⟩ : LegalityRow).matches w = true ↔
      wordOp w = op ∧ (wordArg w).toNat ≤ n ∧ wordLen w = 0 := by
  have hmask : wordOp 0xFF0F = BitVec.allOnes 4 ∧ wordArg 0xFF0F = 0#4 ∧ lenByte 0xFF0F = BitVec.allOnes 8 := by decide
  obtain ⟨hop, harg, hlen⟩ := hmask
  simp only [LegalityRow.matches_iff, hop, harg, hlen, BitVec.and_allOnes, BitVec.and_zero, wordOp_mkWord,
    wordArg_mkWord, lenByte_mkWord _ _ (Nat.zero_le 255), wordLen_le, wordLen_eq_iff (Nat.zero_le 255), and_true,
    and_assoc]
  exact ⟨fun ⟨ho, _, hl, ha⟩ => ⟨ho, ha, hl⟩, fun ⟨ho, ha, hl⟩ => ⟨ho, rfl, hl, ha⟩⟩

/-- A row that fixes the whole word. -/
theorem matches_row_of_fixed_word (hn : n ≤ 255) :
    (⟨name, mkWord op 0 n, 0xFFFF, 15, 255⟩ : LegalityRow).matches w = true ↔
      wordOp w = op ∧ wordArg w = 0 ∧ wordLen w = n := by
  have hmask : wordOp 0xFFFF = BitVec.allOnes 4 ∧ wordArg 0xFFFF = BitVec.allOnes 4 ∧
      lenByte 0xFFFF = BitVec.allOnes 8 := by decide
  obtain ⟨hop, harg, hlen⟩ := hmask
  simp only [LegalityRow.matches_iff, hop, harg, hlen, BitVec.and_allOnes, wordOp_mkWord,
    wordArg_mkWord, lenByte_mkWord _ _ hn, wordArg_le, wordLen_le, wordLen_eq_iff hn, and_true]

end RowKinds

theorem Instr.op_lt (i : Instr) : i.op.toNat < 7 := by
  cases i <;> simp [op]

/-- The operation's row of R81. -/
def Instr.legalityRow : Instr → LegalityRow
  | .pmDecode _ _ => ⟨"PM_DECODE", mkWord 0 0 0, 0x00FF, 15, Config.bufMax⟩
  | .co2Decode _ _ => ⟨"CO2_DECODE", mkWord 1 0 0, 0x00FF, 15, Config.bufMax⟩
  | .thDecode _ _ => ⟨"TH_DECODE", mkWord 2 0 6, 0xFFFF, 15, 255⟩
  | .cmdFrame _ _ => ⟨"CMD_FRAME", mkWord 3 0 0, 0xFF0F, 3, 255⟩
  | .be16 _ _ => ⟨"BE16", mkWord 4 0 2, 0xFFFF, 15, 255⟩
  | .sum16 _ _ => ⟨"SUM16", mkWord 5 0 0, 0x00FF, 15, Config.bufMax⟩
  | .crc8 _ _ => ⟨"CRC8", mkWord 6 0 0, 0x00FF, 15, Config.bufMax⟩

theorem Instr.legalityRow_mem (i : Instr) : i.legalityRow ∈ legalityTable := by
  cases i <;> rw [legalityRow] <;> decide

theorem Instr.legalityRow_mnemonic (i : Instr) : i.legalityRow.mnemonic = i.mnemonic := by
  cases i <;> rfl

theorem Instr.wordOp_legalityRow (i : Instr) : wordOp i.legalityRow.pattern = i.op := by
  cases i <;> exact wordOp_mkWord _ _ _

/-- "The rows differ in `w[3:0]`" (R81). -/
theorem legalityTable_ops_nodup : (legalityTable.map fun row => wordOp row.pattern).Nodup := by decide

/-- Every row fixes `w[3:0]`: a word that matches it has its `op`. -/
theorem wordOp_of_matches {w : Word16} {row : LegalityRow} (hrow : row ∈ legalityTable) (h : row.matches w = true) :
    wordOp w = wordOp row.pattern := by
  have hmask : ∀ row ∈ legalityTable, wordOp row.mask = BitVec.allOnes 4 := by decide
  obtain ⟨⟨hop, -⟩, -⟩ := LegalityRow.matches_iff.mp h
  rw [← hop, hmask row hrow, BitVec.and_allOnes]

/-- A row of the table is the row of every operation that has its `op`. -/
theorem legalityRow_eq {row : LegalityRow} (hrow : row ∈ legalityTable) {i : Instr} (h : i.op = wordOp row.pattern) :
    i.legalityRow = row :=
  List.inj_on_of_nodup_map legalityTable_ops_nodup i.legalityRow_mem hrow (i.wordOp_legalityRow.trans h)

theorem legalityTable_matches_at_most_one (w : Word16) : (legalityTable.filter (·.matches w)).length ≤ 1 := by
  have hsub : ((legalityTable.filter (·.matches w)).map fun row => wordOp row.pattern).Nodup :=
    legalityTable_ops_nodup.sublist (List.filter_sublist.map _)
  have hsame : (legalityTable.filter (·.matches w)).map (fun row => wordOp row.pattern) =
      List.replicate (legalityTable.filter (·.matches w)).length (wordOp w) :=
    List.map_eq_replicate_iff.mpr fun row hrow =>
      (wordOp_of_matches (List.mem_filter.mp hrow).1 (List.mem_filter.mp hrow).2).symm
  rwa [hsame, List.nodup_replicate] at hsub

/-- The row's pattern, mask and bounds say of the word's `arg` and `len` what R63 and R64 say of the operation's. -/
theorem Instr.matches_legalityRow {i : Instr} {w : Word16} (hop : i.op = wordOp w) (harg : i.arg = wordArg w)
    (hlen : i.buf.length = wordLen w) : i.legalityRow.matches w = i.wellFormed := by
  rw [Bool.eq_iff_iff]
  cases i with
  | pmDecode | co2Decode | sum16 | crc8 =>
    rw [legalityRow, matches_row_of_bounded_len, ← hop, ← harg, ← hlen]
    simp [wellFormed, op, arg, buf]
  | thDecode | be16 =>
    rw [legalityRow, matches_row_of_fixed_word (by decide), ← hop, ← harg, ← hlen]
    simp [wellFormed, op, arg, buf]
  | cmdFrame =>
    rw [legalityRow, matches_row_of_bounded_arg, ← hop, ← harg, ← hlen]
    simp [wellFormed, op, arg, buf]

end Sys2Proof

namespace Sys2Proof.Machine

/-! ## The decoder -/

/-- Only a reserved `op` is refused, and by its name (R62, R65). -/
theorem decodeRequest_error {r : Request} {e : DecodeError} (h : decodeRequest r = .error e) :
    7 ≤ r.op.toNat ∧ e = .reservedOp r.op := by
  unfold decodeRequest at h
  split at h
  case h_8 =>
    cases h
    refine ⟨?_, rfl⟩
    simp only [imp_false] at *
    omega
  all_goals cases h

theorem decodeRequest_of_reserved {r : Request} (h : 7 ≤ r.op.toNat) :
    decodeRequest r = .error (.reservedOp r.op) := by
  cases hd : decodeRequest r with
  | ok i =>
    have hop : i.op = r.op := congrArg Request.op (toRequest_of_decodeRequest hd)
    exact absurd (hop ▸ i.op_lt) (Nat.not_lt.mpr h)
  | error e => rw [(decodeRequest_error hd).2]

theorem decode_of_short {w : Word16} {bytes : List Byte} (h : bytes.length < wordLen w) :
    decode w bytes = .error (.dataShort (wordLen w) bytes.length) := by
  simp [decode, parseRequest, h]

/-- With enough bytes the decoder reads the request of the word's fields (R60, R61). -/
theorem decode_append {w : Word16} {data : List Byte} (h : data.length = wordLen w) (rest : List Byte) :
    decode w (data ++ rest) = (decodeRequest ⟨wordOp w, wordArg w, data⟩).map (·, rest) := by
  rw [decode, parseRequest, if_neg (by simp [h]), List.take_left' h, List.drop_left' h]
  dsimp only
  cases decodeRequest ⟨wordOp w, wordArg w, data⟩ <;> rfl

/-- What the decoder accepts: the word's fields are the operation's, and the bytes are its buffer and the rest. -/
theorem decode_eq_ok_iff {w : Word16} {bytes rest : List Byte} {i : Instr} :
    decode w bytes = .ok (i, rest) ↔
      (i.op = wordOp w ∧ i.arg = wordArg w ∧ i.buf.length = wordLen w) ∧ i.buf ++ rest = bytes := by
  constructor
  · intro h
    rcases Nat.lt_or_ge bytes.length (wordLen w) with hshort | hle
    · rw [decode_of_short hshort] at h
      cases h
    · have hlen : (bytes.take (wordLen w)).length = wordLen w := List.length_take_of_le hle
      rw [← List.take_append_drop (wordLen w) bytes, decode_append hlen] at h
      cases hd : decodeRequest ⟨wordOp w, wordArg w, bytes.take (wordLen w)⟩ with
      | error e => rw [hd] at h; cases h
      | ok j =>
        rw [hd] at h
        cases h
        obtain ⟨hop, harg, hbuf⟩ := Request.mk.inj (toRequest_of_decodeRequest hd)
        exact ⟨⟨hop, harg, hbuf ▸ hlen⟩, hbuf ▸ List.take_append_drop _ _⟩
  · rintro ⟨⟨hop, harg, hlen⟩, rfl⟩
    have hd : decodeRequest ⟨i.op, i.arg, i.buf⟩ = .ok i := decodeRequest_toRequest i
    rw [decode_append hlen, ← hop, ← harg, hd]
    rfl

/-- Settles O1: the word's fields are the operation's (R60), so its bytes and the rest are told apart. -/
theorem encodedRequestsDecodeBack : Obligations.EncodedRequestsDecodeBack := by
  intro i rest hbuf
  obtain ⟨hop, harg, hlen⟩ := Laws.EncodedFields.fields_of_encode i hbuf
  exact decode_eq_ok_iff.mpr ⟨⟨hop.symm, harg.symm, hlen.symm⟩, rfl⟩

/-- Settles O2: a word is made of its fields, which are the accepted operation's. -/
theorem decodedRequestsEncodeBack : Obligations.DecodedRequestsEncodeBack := by
  intro w bytes rest i h
  obtain ⟨⟨hop, harg, hlen⟩, hbytes⟩ := decode_eq_ok_iff.mp h
  refine ⟨?_, hbytes⟩
  calc (encode i).1 = mkWord i.op i.arg i.buf.length := rfl
    _ = mkWord (wordOp w) (wordArg w) (wordLen w) := by rw [hop, harg, hlen]
    _ = w := mkWord_fields w

/-- A word with exactly its data bytes is the operation of its fields, or its `op` is reserved (R62). -/
theorem decode_exact {w : Word16} {data : List Byte} (h : data.length = wordLen w) :
    (7 ≤ (wordOp w).toNat ∧ decode w data = .error (.reservedOp (wordOp w))) ∨
      ∃ i, decode w data = .ok (i, []) ∧ i.op = wordOp w ∧ i.legalityRow.matches w = i.wellFormed := by
  have hdec := decode_append h []
  rw [List.append_nil] at hdec
  cases hd : decodeRequest ⟨wordOp w, wordArg w, data⟩ with
  | error e =>
    obtain ⟨hop, rfl⟩ := decodeRequest_error hd
    exact .inl ⟨hop, by rw [hdec, hd]; rfl⟩
  | ok i =>
    have hi : decode w data = .ok (i, []) := by rw [hdec, hd]; rfl
    obtain ⟨⟨hop, harg, hlen⟩, -⟩ := decode_eq_ok_iff.mp hi
    exact .inr ⟨i, hi, hop, Instr.matches_legalityRow hop harg hlen⟩

/-- Settles O4: a row that matches has the word's `op`, so it is the row of the operation decoded, which matches exactly when that is legal. -/
theorem legalityTableDecidesLegality : Obligations.LegalityTableDecidesLegality := by
  intro w data hdata
  refine ⟨legalityTable_matches_at_most_one w, fun row hrow hmatch => ?_, fun hnone => ?_⟩
  · have hop := wordOp_of_matches hrow hmatch
    rcases decode_exact hdata with ⟨hreserved, -⟩ | ⟨i, hdec, hi, hlegal⟩
    · have hlt : ∀ row ∈ legalityTable, (wordOp row.pattern).toNat < 7 := by decide
      exact absurd (hop ▸ hlt row hrow) (Nat.not_lt.mpr hreserved)
    · obtain rfl := legalityRow_eq hrow (hi.trans hop)
      exact ⟨i, hdec, i.legalityRow_mnemonic.symm, hlegal.symm.trans hmatch⟩
  · rcases decode_exact hdata with hreserved | ⟨i, hdec, -, hlegal⟩
    · exact .inl hreserved
    · exact .inr ⟨i, hdec, hlegal.symm.trans (hnone _ i.legalityRow_mem)⟩

/-! ## Responses -/

theorem illegalResponse_eq (i : Instr) : illegalResponse i = ⟨.illegalRequest, errorPayload i⟩ := by
  cases i <;> rfl

/-- Settles O6: R63 and R64 refuse what R81 does, before the operation's own rule. -/
theorem illegalRequestsAreAnsweredByTheirUnit : Obligations.IllegalRequestsAreAnsweredByTheirUnit := by
  intro i s h
  rw [exec_eq_serve, serve_of_illegal ((legal_eq_wellFormed i).trans h), illegalResponse_eq]

theorem Response.fits_of_ok {i : Instr} {p : Payload} (h : p.successOf i) : (⟨.ok, p⟩ : Response).Fits i :=
  ⟨trivial, fun _ => h, fun hne => absurd rfl hne⟩

theorem Response.fits_of_error {i : Instr} {st : Status} (hst : st ≠ .ok) (h : st.producedBy i) :
    (⟨st, errorPayload i⟩ : Response).Fits i :=
  ⟨h, fun hok => absurd hok hst, fun _ => rfl⟩

theorem illegalResponse_fits (i : Instr) : (illegalResponse i).Fits i :=
  illegalResponse_eq i ▸ Response.fits_of_error nofun trivial

theorem pmResponse_fits {buf : List Byte} {resp : Response} (h : pmResponse buf = .ok resp) (arg : Nibble) :
    resp.Fits (.pmDecode arg buf) := by
  rcases scan_cases buf with ⟨i, -, hfirst⟩ | ⟨-, hnone⟩
  · rw [pmResponse_of_firstMarker hfirst] at h
    split_ifs at h with hshort hsum
    · cases h; exact Response.fits_of_error nofun rfl
    · cases h; exact Response.fits_of_ok ⟨_, rfl⟩
    · cases h; exact Response.fits_of_error nofun rfl
  · rw [pmResponse_of_no_marker hnone] at h
    cases h
    exact Response.fits_of_error nofun rfl

theorem co2Response_fits {buf : List Byte} {resp : Response} (h : co2Response buf = .ok resp) (arg : Nibble) :
    resp.Fits (.co2Decode arg buf) := by
  by_cases hlen : buf.length = 7
  · rw [co2Response_of_length hlen] at h; cases h; exact Response.fits_of_ok ⟨_, rfl⟩
  · rw [co2Response_of_other_length hlen] at h; cases h; exact Response.fits_of_error nofun rfl

theorem thResponse_fits {c : Config.Precision} {buf : List Byte} {resp : Response} (hlen : buf.length = 6)
    (h : thResponse c buf = .ok resp) (arg : Nibble) : resp.Fits (.thDecode arg buf) := by
  match buf, hlen with
  | [b0, b1, b2, b3, b4, b5], _ =>
    rw [thResponse_six] at h
    split_ifs at h
    · cases h; exact Response.fits_of_error nofun rfl
    · cases h; exact Response.fits_of_error nofun rfl
    · cases h; exact Response.fits_of_ok ⟨_, _, rfl⟩

theorem cmdResponse_fits {arg : Nibble} {resp : Response} (hle : arg.toNat ≤ 3)
    (h : cmdResponse CmdTable.built arg = .ok resp) (buf : List Byte) : resp.Fits (.cmdFrame arg buf) := by
  obtain ⟨bs, hentry, -⟩ := readCmd_of_le CmdTable.built hle
  rw [cmdResponse_of_entry hentry] at h
  cases h
  exact Response.fits_of_ok ⟨bs, hentry, rfl⟩

theorem be16Response_fits {buf : List Byte} {resp : Response} (hlen : buf.length = 2)
    (h : be16Response buf = .ok resp) (arg : Nibble) : resp.Fits (.be16 arg buf) := by
  obtain ⟨hi, lo, rfl⟩ := List.length_eq_two.mp hlen
  rw [be16Response_pair] at h
  cases h
  exact Response.fits_of_ok ⟨_, rfl⟩

/-- Each rule's own answers are those its row of R70 and R72 gives it. -/
theorem ruleResponse_fits {i : Instr} {resp : Response} (hlegal : legal i = true)
    (h : ruleResponse CmdTable.built i = .ok resp) : resp.Fits i := by
  rw [legal_eq_wellFormed] at hlegal
  cases i with
  | pmDecode arg _ => exact pmResponse_fits h arg
  | co2Decode arg _ => exact co2Response_fits h arg
  | thDecode arg _ => exact thResponse_fits (of_decide_eq_true (Bool.and_eq_true_iff.mp hlegal).2) h arg
  | cmdFrame _ buf => exact cmdResponse_fits (of_decide_eq_true (Bool.and_eq_true_iff.mp hlegal).1) h buf
  | be16 arg _ => exact be16Response_fits (of_decide_eq_true (Bool.and_eq_true_iff.mp hlegal).2) h arg
  | sum16 _ buf => cases (sum16Response_eq buf).symm.trans h; exact Response.fits_of_ok ⟨_, rfl⟩
  | crc8 _ buf => cases (crc8Response_eq buf).symm.trans h; exact Response.fits_of_ok ⟨_, rfl⟩

/-- Settles O37: a legal request gets its rule's answer, an illegal one its row's error payload. -/
theorem responsesFollowThePayloadTable : Obligations.ResponsesFollowThePayloadTable := by
  intro i s htable
  rw [exec_eq_serve, htable]
  cases hlegal : legal i with
  | false => exact ⟨_, serve_of_illegal hlegal, illegalResponse_fits i⟩
  | true =>
    obtain ⟨resp, hresp⟩ := ruleResponse_ok CmdTable.built hlegal
    exact ⟨resp, by rw [hresp, serve_of_legal hlegal], ruleResponse_fits hlegal hresp⟩

/-! ## Delivered responses fit their requests -/

theorem Delivery.fits_of_decodeRequest {d : Delivery} {i : Instr} (hd : decodeRequest d.req = .ok i)
    (h : d.resp.Fits i) : d.Fits := by
  simpa only [Delivery.Fits, hd] using h

theorem Delivery.fits_of_no_unit {r : Request} (h : r.unit = none) :
    (⟨r, raise .illegalRequest⟩ : Delivery).Fits := by
  cases hd : decodeRequest r with
  | ok i => exact absurd ((unit_of_decodeRequest hd).symm.trans h) nofun
  | error e => simp only [Delivery.Fits, hd, raise]

theorem State.AnswersFit.of_delivered {s t : State} (hs : s.AnswersFit) (h : t.delivered = s.delivered)
    (hiface : t.ifaceDelivered = s.ifaceDelivered) : t.AnswersFit :=
  ⟨fun u d hd => hs.units u d (h ▸ hd), fun d hd => hs.interface d (hiface ▸ hd)⟩

theorem State.AnswersFit.deliver {s : State} (hs : s.AnswersFit) {u : UnitId} {r : Request} {resp : Response}
    (hu : r.unit = some u) (hfits : (⟨r, resp⟩ : Delivery).Fits) : (s.deliver u r resp).AnswersFit := by
  refine ⟨fun v d hd => ?_, hs.interface⟩
  rw [State.deliver_delivered, PerUnit.get_set] at hd
  split_ifs at hd with hv
  · rcases List.mem_append.mp hd with hold | hnew
    · exact hv ▸ hs.units u d hold
    · obtain rfl := List.mem_singleton.mp hnew
      exact ⟨hv ▸ hu, hfits⟩
  · exact hs.units v d hd

theorem State.AnswersFit.deliverInterface {s : State} (hs : s.AnswersFit) {r : Request} {resp : Response}
    (hu : r.unit = none) (hfits : (⟨r, resp⟩ : Delivery).Fits) : (s.deliverInterface r resp).AnswersFit := by
  refine ⟨hs.units, fun d hd => ?_⟩
  rcases List.mem_append.mp hd with hold | hnew
  · exact hs.interface d hold
  · obtain rfl := List.mem_singleton.mp hnew
    exact ⟨hu, hfits⟩

theorem State.AnswersFit.hostMove {s : State} (hs : s.AnswersFit) (r : Request) : (hostMove s r).AnswersFit := by
  cases hu : r.unit with
  | none => rw [hostMove_of_no_unit hu]; exact hs.deliverInterface hu (Delivery.fits_of_no_unit hu)
  | some u => rw [hostMove_of_unit hu]; exact hs.of_delivered rfl rfl

theorem State.AnswersFit.unitMove {s t : State} {u : UnitId} (hs : s.AnswersFit) (hw : s.Wired)
    (h : unitMove s u = .next t) : t.AnswersFit := by
  rcases unitMove_next h with ⟨r, i, -, hd, hexec⟩ | ⟨r, e, hu, hd, -⟩ | ⟨-, -, rfl⟩ | ⟨r, ws, -, -, rfl⟩
  · obtain ⟨resp, hrun, hfits⟩ := responsesFollowThePayloadTable i s hw.table
    cases hrun.symm.trans hexec
    exact hs.deliver (unit_toRequest i) (Delivery.fits_of_decodeRequest (decodeRequest_toRequest i) hfits)
  · obtain ⟨i, hi, -⟩ := (hw.held u r hu).decodes
    exact absurd (hd.symm.trans hi) nofun
  · exact hs
  · exact hs.of_delivered rfl rfl

/-- Settles O52: a Busy unit of a wired state delivers its own operation's response, and the interface answers reserved ops alone. -/
theorem stepKeepsAnswersFitting : Obligations.StepKeepsAnswersFitting := by
  intro s t hw hs h
  rcases step_next_event h with rfl | ⟨e, rest, hmove, hrest, -⟩
  · exact hs
  · have hs' : ({ s with schedule := rest } : State).AnswersFit := hs.of_delivered rfl rfl
    cases e with
    | host r => cases hmove; exact hs'.hostMove r
    | unit u => exact hs'.unitMove (hw.with_schedule hrest) hmove
    | reset => cases hmove; exact hs'.of_delivered rfl rfl

/-! ## Fixed words, reserved ops, codes and pseudo-requests -/

/-- Settles O3: nine fixed words, each decoded. -/
theorem sampleRequestWordsDecode : Obligations.SampleRequestWordsDecode := by
  unfold Obligations.SampleRequestWordsDecode
  decide

/-- Settles O5: no operation has a reserved `op`, so the host's move is the interface's answer. -/
theorem reservedOpIsAnsweredByTheInterface : Obligations.ReservedOpIsAnsweredByTheInterface := by
  intro s r rest hop hsched
  refine ⟨_, step_of_schedule hsched, ?_⟩
  rw [hostMove_of_no_unit (unit_of_decodeRequest_error (decodeRequest_of_reserved hop))]
  exact ⟨rfl, rfl, rfl, rfl, rfl, rfl⟩

theorem Status.ofCode_code (st : Status) : Status.ofCode st.code = some st := by
  cases st <;> rfl

theorem Status.code_le (st : Status) : st.code.toNat ≤ 7 := by
  cases st <;> decide

theorem Status.ofCode_of_ge {c : Nibble} (h : 8 ≤ c.toNat) : Status.ofCode c = none := by
  unfold Status.ofCode
  split
  case h_9 => rfl
  all_goals omega

/-- Settles O7: codes are read back, and none of the table is above 7. -/
theorem statusCodesAreTheTable : Obligations.StatusCodesAreTheTable :=
  ⟨fun st => ⟨st.ofCode_code, st.code_le⟩, fun _ => Status.ofCode_of_ge,
    rfl, rfl, rfl, rfl, rfl, rfl, rfl, rfl⟩

/-- Settles O33: each expansion is by definition, and a selector up to 3 with no bytes is legal. -/
theorem pseudoRequestsExpandToCommandFrames : Obligations.PseudoRequestsExpandToCommandFrames :=
  ⟨rfl, rfl, rfl, rfl, fun p => by cases p <;> rfl⟩

end Sys2Proof.Machine

/-! PROOFS for the statements of spec/40_primitives.md: the big-endian word (R100, R101), the additive checksum and what it catches in a PM frame (R102 to R104, R133), and the CRC-8 (R105 to R107). -/

namespace Sys2Proof.Machine

/-! ## The numbers that words stand for -/

theorem toNat_append_eq {v w : Nat} (x : BitVec v) (y : BitVec w) : (x ++ y).toNat = 2 ^ w * x.toNat + y.toNat := by
  rw [BitVec.toNat_append, ← Nat.shiftLeft_add_eq_or_of_lt y.isLt, Nat.shiftLeft_eq, Nat.mul_comm]

theorem be16_toNat (hi lo : Byte) : (be16 hi lo).toNat = 256 * hi.toNat + lo.toNat := toNat_append_eq hi lo

@[simp] theorem zext16_toNat (b : Byte) : (zext16 b).toNat = b.toNat :=
  BitVec.toNat_setWidth_of_le (by decide)

theorem zext16_injective : Function.Injective zext16 := fun x y h =>
  BitVec.eq_of_toNat_eq (by rw [← zext16_toNat, h, zext16_toNat])

/-- The request word as a number, for a byte count that fits `len` (R60). -/
theorem mkWord_toNat (op arg : Nibble) {len : Nat} (h : len ≤ 255) :
    (mkWord op arg len).toNat = 256 * len + 16 * arg.toNat + op.toNat := by
  have happend : (mkWord op arg len).toNat = 2 ^ 4 * (BitVec.ofNat 8 len ++ arg).toNat + op.toNat :=
    toNat_append_eq _ _
  rw [happend, toNat_append_eq, BitVec.toNat_ofNat, Nat.mod_eq_of_lt (by omega)]
  ring

theorem encode_word_of_arg_zero {i : Instr} (harg : i.arg = 0) (h : i.buf.length ≤ 255) :
    (encode i).1 = BitVec.ofNat 16 (256 * i.buf.length + i.op.toNat) := by
  have hword : ((encode i).1).toNat = 256 * i.buf.length + 16 * i.arg.toNat + i.op.toNat := mkWord_toNat _ _ h
  apply BitVec.eq_of_toNat_eq
  rw [hword, harg, BitVec.toNat_ofNat, Nat.mod_eq_of_lt (by omega)]
  rfl

/-! ## The big-endian word (R100) -/

@[simp] theorem be16_high (hi lo : Byte) : (be16 hi lo).extractLsb' 8 8 = hi := BitVec.extractLsb'_append_eq_left

@[simp] theorem be16_low (hi lo : Byte) : (be16 hi lo).extractLsb' 0 8 = lo := BitVec.extractLsb'_append_eq_right

theorem be16_inj {hi lo hi' lo' : Byte} : be16 hi lo = be16 hi' lo' ↔ hi = hi' ∧ lo = lo' := by
  constructor
  · intro h
    exact ⟨by simpa using congrArg (BitVec.extractLsb' 8 8) h, by simpa using congrArg (BitVec.extractLsb' 0 8) h⟩
  · rintro ⟨rfl, rfl⟩
    rfl

/-- A word is the big-endian word of its two bytes. -/
theorem be16_high_low (w : Word16) : be16 (w.extractLsb' 8 8) (w.extractLsb' 0 8) = w :=
  BitVec.extractLsb'_append_extractLsb' (w := 8) (len := 8)

theorem be16_eq_or (hi lo : Byte) : be16 hi lo = (hi.setWidth 16 <<< 8) ||| lo.setWidth 16 :=
  BitVec.setWidth_append_eq_shiftLeft_setWidth_or (w'' := 16) ▸ (BitVec.setWidth_eq _).symm

/-- Settles O8: the word is the two bytes side by side, so each is read back from it. -/
theorem be16FunctionIsTheBigEndianWord : Obligations.Be16FunctionIsTheBigEndianWord :=
  ⟨fun hi lo => ⟨be16_toNat hi lo, be16_eq_or hi lo, be16_high hi lo, be16_low hi lo⟩,
    fun _ _ _ _ => be16_inj.mp⟩

/-! ## The additive checksum (R102, R104) -/

/-- The exact sum of the bytes. -/
def byteSum (seq : List Byte) : Nat := (seq.map (·.toNat)).sum

theorem sum16_toNat (seq : List Byte) : (sum16 seq).toNat = byteSum seq % 2 ^ 16 := by
  induction seq with
  | nil => rfl
  | cons b seq ih =>
    rw [sum16_cons, BitVec.toNat_add, zext16_toNat, ih, Nat.add_mod_mod, byteSum, byteSum, List.map_cons,
      List.sum_cons]

theorem byteSum_le (seq : List Byte) : byteSum seq ≤ 255 * seq.length := by
  have hbyte : ∀ n ∈ seq.map (·.toNat), n ≤ 255 := by
    intro n hn
    obtain ⟨b, -, rfl⟩ := List.mem_map.mp hn
    exact Nat.le_of_lt_succ b.isLt
  simpa [byteSum, mul_comm] using List.sum_le_card_nsmul _ _ hbyte

/-- Up to 257 bytes the accumulator does not wrap. -/
theorem sum16_toNat_of_length_le {seq : List Byte} (h : seq.length ≤ 257) : (sum16 seq).toNat = byteSum seq := by
  have hle := byteSum_le seq
  rw [sum16_toNat, Nat.mod_eq_of_lt (by omega)]

theorem sum16_perm {seq seq' : List Byte} (h : seq.Perm seq') : sum16 seq = sum16 seq' := by
  apply BitVec.eq_of_toNat_eq
  rw [sum16_toNat, sum16_toNat, byteSum, byteSum, (h.map _).sum_eq]

theorem sum16_replace (pre post : List Byte) (x y : Byte) :
    sum16 (pre ++ y :: post) = sum16 (pre ++ x :: post) + (zext16 y - zext16 x) := by
  simp only [sum16_append, sum16_cons]
  ring

/-- The accumulator is wider than a byte, so a changed byte changes the sum, wrapped or not. -/
theorem sum16_replace_ne (pre post : List Byte) {x y : Byte} (h : x ≠ y) :
    sum16 (pre ++ y :: post) ≠ sum16 (pre ++ x :: post) := by
  rw [sum16_replace pre post x y, Ne, add_eq_left, sub_eq_zero]
  exact fun heq => h (zext16_injective heq).symm

theorem sum16_set_ne {seq : List Byte} {k : Nat} {b : Byte} (hk : k < seq.length) (hb : b ≠ seq[k]) :
    sum16 (seq.set k b) ≠ sum16 seq := by
  have hset : ∀ x, seq.set k x = seq.take k ++ x :: seq.drop (k + 1) := fun x => by
    rw [List.set_eq_take_append_cons_drop, if_pos hk]
  have hself : seq.take k ++ seq[k] :: seq.drop (k + 1) = seq := by rw [← hset, List.set_getElem_self]
  have hne := sum16_replace_ne (seq.take k) (seq.drop (k + 1)) hb.symm
  rwa [hself, ← hset] at hne

theorem sum16_two_bytes (a b c : List Byte) (x y : Byte) :
    sum16 (a ++ x :: b ++ y :: c) = sum16 (a ++ b ++ c) + (zext16 x + zext16 y) := by
  simp only [sum16_append, sum16_cons]
  ring

theorem frameSum_toNat_le (buf : List Byte) (i : Nat) : (frameSum buf i).toNat ≤ 0x1DE2 := by
  have hlen : ((buf.drop i).take 30).length ≤ 30 := List.length_take_le ..
  have hle := byteSum_le ((buf.drop i).take 30)
  rw [frameSum, sum16_toNat_of_length_le (by omega)]
  omega

/-- Settles O9, by induction on the sequence for the closed form. -/
theorem sum16FunctionIsTheSumOfTheBytes : Obligations.Sum16FunctionIsTheSumOfTheBytes := by
  refine ⟨sum16_nil, fun seq b => ?_, sum16_toNat⟩
  rw [sum16_append, sum16_singleton, BitVec.toNat_add, zext16_toNat]

/-- Settles O10: a sum is additive in its parts, and only the exact sum of the bytes matters. -/
theorem sum16LawsHold : Obligations.Sum16LawsHold := by
  refine ⟨fun _ => sum16_toNat_of_length_le, frameSum_toNat_le, fun _ _ => sum16_perm,
    fun pre post x y _ hxy => ⟨sum16_replace pre post x y, sum16_replace_ne pre post hxy⟩,
    fun a b c x y x' y' h => ?_, fun a b c x y => ?_⟩
  · have hpair : zext16 x + zext16 y = zext16 x' + zext16 y' := by
      apply BitVec.eq_of_toNat_eq
      simp only [BitVec.toNat_add, zext16_toNat, h]
    rw [sum16_two_bytes, sum16_two_bytes, hpair]
  · rw [sum16_two_bytes, sum16_two_bytes, add_comm (zext16 x)]

/-! ## The bit-serial CRC-8 (R105) -/

theorem crc8Shift8_eq_iterate (c : Byte) : crc8Shift8 c = crc8Shift^[8] c := rfl

/-- Settles O11: the last byte is the last step of the fold, and a step is eight shifts. -/
theorem crc8FunctionIsTheBitSerialLoop : Obligations.Crc8FunctionIsTheBitSerialLoop :=
  ⟨crc8_nil, fun seq b => (crc8_append_singleton seq b).trans (crc8Shift8_eq_iterate _)⟩

@[simp] theorem crc8Shift8_zero : crc8Shift8 0 = 0 := by decide

/-- The polynomial has its constant term, so a shift loses nothing: bit 0 tells whether bit 7 was shifted out. -/
theorem crc8Shift_eq_zero {c : Byte} (h : crc8Shift c = 0) : c = 0 := by
  unfold crc8Shift at h
  split_ifs at h with htop
  · have hlow := congrArg (BitVec.getLsbD · 0) h
    simp [Config.crc8Poly] at hlow
  · ext k hk
    by_cases hk7 : k = 7
    · subst hk7
      simpa using htop
    · have hbit := congrArg (BitVec.getLsbD · (k + 1)) h
      simpa [show k + 1 < 8 by omega] using hbit

theorem crc8Shift8_eq_zero_iff {c : Byte} : crc8Shift8 c = 0 ↔ c = 0 := by
  constructor
  · intro h
    unfold crc8Shift8 at h
    iterate 8 apply crc8Shift_eq_zero
    exact h
  · rintro rfl
    exact crc8Shift8_zero

/-! ## Errors in a 2-byte group (R107) -/

/-- The CRC-8 is affine over XOR. -/
theorem crc8_pair_xor (a b x y : Byte) :
    crc8 [a ^^^ x, b ^^^ y] = crc8 [a, b] ^^^ crc8Shift8 (crc8Shift8 x ^^^ y) := by
  have hswap : crc8Shift8 (Config.crc8Init ^^^ a) ^^^ crc8Shift8 x ^^^ (b ^^^ y) =
      crc8Shift8 (Config.crc8Init ^^^ a) ^^^ b ^^^ (crc8Shift8 x ^^^ y) := by ac_rfl
  rw [crc8_pair, ← BitVec.xor_assoc Config.crc8Init, crc8Shift8_xor _ x, hswap, crc8Shift8_xor, crc8_pair]

/-- What the error pattern `e` adds to the CRC-8 of a 2-byte group, whatever the group. -/
def crcError (e : Word16) : Byte := crc8Shift8 (crc8Shift8 (e.extractLsb' 8 8) ^^^ e.extractLsb' 0 8)

theorem crc8_groupBytes_xor (d e : Word16) :
    crc8 (groupBytes (d ^^^ e)) = crc8 (groupBytes d) ^^^ crcError e := by
  rw [groupBytes, BitVec.extractLsb'_xor, BitVec.extractLsb'_xor]
  exact crc8_pair_xor ..

/-- The error pattern that goes undetected when its high byte is `hi`: the low byte cancels what `hi` does. -/
def undetectedError (hi : Byte) : Word16 := be16 hi (crc8Shift8 hi)

theorem crcError_eq_zero_iff {e : Word16} : crcError e = 0 ↔ undetectedError (e.extractLsb' 8 8) = e := by
  rw [crcError, crc8Shift8_eq_zero_iff]
  calc crc8Shift8 (e.extractLsb' 8 8) ^^^ e.extractLsb' 0 8 = 0
      ↔ crc8Shift8 (e.extractLsb' 8 8) = e.extractLsb' 0 8 := BitVec.xor_eq_zero_iff
    _ ↔ undetectedError (e.extractLsb' 8 8) = be16 (e.extractLsb' 8 8) (e.extractLsb' 0 8) := by
      rw [undetectedError, be16_inj, and_iff_right rfl]
    _ ↔ undetectedError (e.extractLsb' 8 8) = e := by rw [be16_high_low]

theorem crc8_groupBytes_xor_eq_iff {d e : Word16} :
    crc8 (groupBytes (d ^^^ e)) = crc8 (groupBytes d) ↔ undetectedError (e.extractLsb' 8 8) = e := by
  rw [crc8_groupBytes_xor, xor_left_eq_self_iff, ← crcError_eq_zero_iff]

theorem undetected_iff {e : Word16} : Undetected e ↔ undetectedError (e.extractLsb' 8 8) = e :=
  ⟨fun h => crc8_groupBytes_xor_eq_iff.mp (h 0), fun h _ => crc8_groupBytes_xor_eq_iff.mpr h⟩

@[simp] theorem undetectedError_high (hi : Byte) : (undetectedError hi).extractLsb' 8 8 = hi := be16_high _ _

theorem undetectedError_injective : Function.Injective undetectedError := fun x y h => by
  rw [← undetectedError_high x, h, undetectedError_high]

@[simp] theorem undetectedError_zero : undetectedError 0 = 0 := by decide

/-- The undetected nonzero errors are one for each nonzero high byte. -/
theorem ne_zero_and_undetected_iff {e : Word16} :
    e ≠ 0 ∧ Undetected e ↔ ∃ hi, hi ≠ 0 ∧ undetectedError hi = e := by
  rw [undetected_iff]
  constructor
  · rintro ⟨hne, he⟩
    refine ⟨e.extractLsb' 8 8, fun hzero => hne ?_, he⟩
    rw [← he, hzero, undetectedError_zero]
  · rintro ⟨hi, hne, rfl⟩
    refine ⟨fun h => hne (undetectedError_injective (h.trans undetectedError_zero.symm)), ?_⟩
    rw [undetectedError_high]

/-- Evaluated over the 255 nonzero high bytes (R107). -/
theorem four_le_setBits_undetectedError : ∀ hi : Byte, hi ≠ 0 → 4 ≤ setBits (undetectedError hi) := by
  decide +kernel

theorem four_le_setBits_of_undetected {e : Word16} (hne : e ≠ 0) (h : Undetected e) : 4 ≤ setBits e := by
  obtain ⟨hi, hhi, rfl⟩ := ne_zero_and_undetected_iff.mp ⟨hne, h⟩
  exact four_le_setBits_undetectedError hi hhi

theorem high_eq_zero_of_and_eq_zero {w : Word16} (h : w &&& 0xFF00 = 0) : w.extractLsb' 8 8 = 0 := by
  have hhigh : (w &&& 0xFF00).extractLsb' 8 8 = w.extractLsb' 8 8 &&& BitVec.allOnes 8 := BitVec.extractLsb'_and
  rw [h, BitVec.and_allOnes] at hhigh
  exact hhigh.symm

theorem low_eq_zero_of_and_eq_zero {w : Word16} (h : w &&& 0x00FF = 0) : w.extractLsb' 0 8 = 0 := by
  have hlow : (w &&& 0x00FF).extractLsb' 0 8 = w.extractLsb' 0 8 &&& BitVec.allOnes 8 := BitVec.extractLsb'_and
  rw [h, BitVec.and_allOnes] at hlow
  exact hlow.symm

/-- An error within the low byte has high byte 0, and one within the high byte leaves the low byte nothing to cancel. -/
theorem eq_zero_of_undetected_of_one_byte {e : Word16} (h : Undetected e)
    (hbyte : e &&& 0xFF00 = 0 ∨ e &&& 0x00FF = 0) : e = 0 := by
  have he := undetected_iff.mp h
  have hhigh : e.extractLsb' 8 8 = 0 := by
    rcases hbyte with hb | hb
    · exact high_eq_zero_of_and_eq_zero hb
    · have hlow : crc8Shift8 (e.extractLsb' 8 8) = e.extractLsb' 0 8 := by
        simpa [undetectedError] using congrArg (BitVec.extractLsb' 0 8) he
      exact crc8Shift8_eq_zero_iff.mp (hlow.trans (low_eq_zero_of_and_eq_zero hb))
  rw [← he, hhigh, undetectedError_zero]

theorem undetected_below_0262 {e : Word16} (hne : e ≠ 0) (h : Undetected e) (hlt : e.toNat < 0x0262) : e = 0x0131 := by
  have hone : undetectedError 1 = 0x0131 := by decide
  have htwo : undetectedError 2 = 0x0262 := by decide
  obtain ⟨hi, hhi, rfl⟩ := ne_zero_and_undetected_iff.mp ⟨hne, h⟩
  have hnat : hi.toNat ≠ 0 := fun h0 => hhi (BitVec.eq_of_toNat_eq h0)
  have hcases : hi.toNat = 1 ∨ hi.toNat = 2 := by
    rw [undetectedError, be16_toNat] at hlt
    omega
  rcases hcases with h1 | h2
  · obtain rfl : hi = 1 := BitVec.eq_of_toNat_eq h1
    exact hone
  · obtain rfl : hi = 2 := BitVec.eq_of_toNat_eq h2
    rw [htwo] at hlt
    exact absurd hlt (by decide)

/-- The nonzero errors that go undetected. -/
def undetectedErrors : Finset Word16 := (Finset.univ.erase 0).map ⟨undetectedError, undetectedError_injective⟩

theorem mem_undetectedErrors {e : Word16} : e ∈ undetectedErrors ↔ e ≠ 0 ∧ Undetected e := by
  rw [ne_zero_and_undetected_iff, undetectedErrors, Finset.mem_map]
  simp only [Finset.mem_erase, Finset.mem_univ, and_true, Function.Embedding.coeFn_mk]

theorem card_undetectedErrors : undetectedErrors.card = 255 := by
  rw [undetectedErrors, Finset.card_map, Finset.card_erase_of_mem (Finset.mem_univ _), Finset.card_univ,
    ← FinEnum.card_eq_fintypeCard, FinEnum.card_bitVec]
  rfl

/-- Settles O12: an error's effect is linear in it, and it goes undetected only when its low byte cancels its high byte. -/
theorem crc8LawsHold : Obligations.Crc8LawsHold := by
  refine ⟨fun _ _ => congrArg crc8, fun seq => ?_, fun d d' e => ?_, fun e hne he d heq => ?_,
    ⟨undetectedErrors.toList, undetectedErrors.nodup_toList, (Finset.length_toList _).trans card_undetectedErrors,
      fun _ => Finset.mem_toList.trans mem_undetectedErrors⟩,
    fun _ => four_le_setBits_of_undetected, undetected_iff.mpr (by decide), undetected_iff.mpr (by decide),
    fun _ => undetected_below_0262⟩
  · rw [crc8_append_singleton, BitVec.xor_self]
    exact crc8Shift8_zero
  · rw [crc8_groupBytes_xor, crc8_groupBytes_xor, xor_xor_cancel_comm, xor_xor_cancel_comm]
  · have hund : Undetected e := undetected_iff.mpr (crc8_groupBytes_xor_eq_iff.mp heq)
    rcases he with hlow | hhigh | hbits
    · exact hne (eq_zero_of_undetected_of_one_byte hund (.inl hlow))
    · exact hne (eq_zero_of_undetected_of_one_byte hund (.inr hhigh))
    · exact absurd hbits (Nat.not_le.mpr (four_le_setBits_of_undetected hne hund))

/-! ## The primitive unit's operations (R101, R103, R106) -/

section WellFormed

variable {arg : Nibble} {buf : List Byte}

theorem wellFormed_be16_iff : (Instr.be16 arg buf).wellFormed = true ↔ arg = 0 ∧ buf.length = 2 := by
  rw [Instr.wellFormed, Bool.and_eq_true, decide_eq_true_eq, decide_eq_true_eq]

theorem wellFormed_sum16_iff : (Instr.sum16 arg buf).wellFormed = true ↔ arg = 0 ∧ buf.length ≤ 128 := by
  rw [Instr.wellFormed, Bool.and_eq_true, decide_eq_true_eq, decide_eq_true_eq, Config.bufMax]

theorem wellFormed_crc8_iff : (Instr.crc8 arg buf).wellFormed = true ↔ arg = 0 ∧ buf.length ≤ 128 := by
  rw [Instr.wellFormed, Bool.and_eq_true, decide_eq_true_eq, decide_eq_true_eq, Config.bufMax]

theorem wellFormed_pmDecode_iff : (Instr.pmDecode arg buf).wellFormed = true ↔ arg = 0 ∧ buf.length ≤ 128 := by
  rw [Instr.wellFormed, Bool.and_eq_true, decide_eq_true_eq, decide_eq_true_eq, Config.bufMax]

end WellFormed

theorem exec_of_wellFormed {i : Instr} {s : State} {resp : Response} (h : i.wellFormed = true)
    (hrule : ruleResponse s.cmd i = .ok resp) : exec i s = .next (s.deliver i.unit i.toRequest resp) := by
  rw [exec_eq_serve, hrule, serve_of_legal ((legal_eq_wellFormed i).trans h)]

theorem exec_of_not_wellFormed {i : Instr} {s : State} (h : ¬ i.wellFormed = true) :
    exec i s = .next (s.deliver i.unit i.toRequest ⟨.illegalRequest, errorPayload i⟩) :=
  illegalRequestsAreAnsweredByTheirUnit i s (Bool.eq_false_of_not_eq_true h)

/-- Settles O13: two bytes with `arg` 0 are the one well-formed shape. -/
theorem be16RequestAnswersTheWord : Obligations.Be16RequestAnswersTheWord :=
  ⟨fun hi lo _ => ⟨encode_word_of_arg_zero (i := .be16 0 [hi, lo]) rfl (show 2 ≤ 255 by decide),
      exec_of_wellFormed (wellFormed_be16_iff.mpr ⟨rfl, rfl⟩) (be16Response_pair hi lo)⟩,
    fun _ _ _ h => exec_of_not_wellFormed (mt wellFormed_be16_iff.mp h), by decide, by decide, by decide, by decide⟩

/-- Settles O14: at most 128 bytes with `arg` 0 are well-formed, and so few never wrap. -/
theorem sum16RequestAnswersTheSum : Obligations.Sum16RequestAnswersTheSum := by
  refine ⟨fun buf s hlen => ⟨encode_word_of_arg_zero (i := .sum16 0 buf) rfl (hlen.trans (by decide)),
      exec_of_wellFormed (wellFormed_sum16_iff.mpr ⟨rfl, hlen⟩) (sum16Response_eq buf),
      sum16_toNat_of_length_le (by omega)⟩,
    fun _ _ _ h => exec_of_not_wellFormed (mt wellFormed_sum16_iff.mp h), rfl, BitVec.eq_of_toNat_eq ?_⟩
  rw [sum16_toNat, byteSum, List.map_replicate, List.sum_replicate]
  rfl

/-- Settles O15: at most 128 bytes with `arg` 0 are well-formed. -/
theorem crc8RequestAnswersTheCrc : Obligations.Crc8RequestAnswersTheCrc :=
  ⟨fun buf _ hlen => ⟨encode_word_of_arg_zero (i := .crc8 0 buf) rfl (hlen.trans (by decide)),
      exec_of_wellFormed (wellFormed_crc8_iff.mpr ⟨rfl, hlen⟩) (crc8Response_eq buf)⟩,
    fun _ _ _ h => exec_of_not_wellFormed (mt wellFormed_crc8_iff.mp h),
    by decide, by decide, by decide, by decide, by decide⟩

/-! ## One changed byte of a PM frame (R104, R133) -/

section ChangedByte

variable {buf : List Byte} {i k : Nat} {b : Byte}

theorem markerAt_congr {buf' : List Byte} {j : Nat} (h : buf'[j]? = buf[j]?) (h' : buf'[j + 1]? = buf[j + 1]?) :
    MarkerAt buf' j ↔ MarkerAt buf j := by
  rw [MarkerAt, MarkerAt, h, h']

theorem firstMarker_set (h : FirstMarker buf i) (hk : 2 ≤ k) : FirstMarker (buf.set (i + k) b) i := by
  have hsame : ∀ j, j ≤ i → (MarkerAt (buf.set (i + k) b) j ↔ MarkerAt buf j) := fun j hj =>
    markerAt_congr (List.getElem?_set_ne (by omega)) (List.getElem?_set_ne (by omega))
  exact ⟨(hsame i le_rfl).mpr h.1, fun j hj hm => h.2 j hj ((hsame j hj.le).mp hm)⟩

/-- Past the 30 summed bytes a change leaves the frame's sum. -/
theorem frameSum_set_of_ge (hk : 30 ≤ k) : frameSum (buf.set (i + k) b) i = frameSum buf i := by
  rw [frameSum, List.drop_set, if_neg (by omega), Nat.add_sub_cancel_left, List.take_set_of_le hk, frameSum]

theorem frameSum_set_ne (hlen : i + 30 ≤ buf.length) (hk : k < 30) (hb : b ≠ buf.getD (i + k) 0) :
    frameSum (buf.set (i + k) b) i ≠ frameSum buf i := by
  rw [frameSum, List.drop_set, if_neg (by omega), Nat.add_sub_cancel_left, List.take_set, frameSum]
  refine sum16_set_ne (by simp; omega) ?_
  simpa [hk, show i + k < buf.length by omega] using hb

theorem getD_set_ne {n m : Nat} (h : n ≠ m) : (buf.set n b).getD m 0 = buf.getD m 0 := by
  rw [List.getD_eq_getElem?_getD, List.getElem?_set_ne h, List.getD_eq_getElem?_getD]

theorem getD_set_self {n : Nat} (h : n < buf.length) : (buf.set n b).getD n 0 = b := by
  rw [List.getD_eq_getElem?_getD, List.getElem?_set_self h, Option.getD_some]

theorem wordAt_set_of_lt {m n : Nat} (h : n < m) : wordAt (buf.set n b) m = wordAt buf m := by
  rw [wordAt, getD_set_ne (by omega), getD_set_ne (by omega), wordAt]

/-- A word is changed with either of its bytes. -/
theorem wordAt_set_ne {m n : Nat} (hn : n < buf.length) (hm : n = m ∨ n = m + 1) (hb : b ≠ buf.getD n 0) :
    wordAt (buf.set n b) m ≠ wordAt buf m := by
  intro h
  obtain ⟨hhigh, hlow⟩ := be16_inj.mp h
  rcases hm with rfl | rfl
  · exact hb ((getD_set_self hn).symm.trans hhigh)
  · exact hb ((getD_set_self hn).symm.trans hlow)

end ChangedByte

theorem exec_pmDecode_of_wrong_sum {buf : List Byte} {i : Nat} (s : State) (hlen : buf.length ≤ 128)
    (hfirst : FirstMarker buf i) (hframe : i + 32 ≤ buf.length) (hsum : frameSum buf i ≠ wordAt buf (i + 30)) :
    exec (.pmDecode 0 buf) s = .next (s.deliver .pmu ⟨0, 0, buf⟩ (raise .checksumMismatch)) := by
  refine exec_of_wellFormed (wellFormed_pmDecode_iff.mpr ⟨rfl, hlen⟩) ?_
  rw [ruleResponse, pmResponse_of_firstMarker hfirst, if_neg (by omega), if_neg hsum]

/-- Settles O22: the change moves the sum or the checksum word, never both, and leaves the marker first. -/
theorem pmSingleByteChangeIsCaught : Obligations.PmSingleByteChangeIsCaught := by
  intro buf i k b s hlen hfirst hframe hvalid hk hk' hb
  refine exec_pmDecode_of_wrong_sum s (by simpa using hlen) (firstMarker_set hfirst hk) (by simpa using hframe) ?_
  by_cases hsummed : k < 30
  · rw [wordAt_set_of_lt (by omega), ← hvalid]
    exact frameSum_set_ne (by omega) hsummed hb
  · rw [frameSum_set_of_ge (by omega), hvalid]
    exact (wordAt_set_ne (by omega) (by omega) hb).symm

end Sys2Proof.Machine

/-! PROOFS for the statements of spec/41_pm_scanner_decoder.md: the answer of PM_DECODE on every legal buffer (R122 to R126, R129), and the first match that decides it (R128, R131). -/

namespace Sys2Proof.Machine

/-! ## The answers of PM_DECODE (R122 to R126, R129) -/

section Answers

variable {buf : List Byte} {i : Nat}

theorem exec_pmDecode_of_pmResponse {resp : Response} (s : State) (hlen : buf.length ≤ 128)
    (h : pmResponse buf = .ok resp) : exec (.pmDecode 0 buf) s = .next (s.deliver .pmu ⟨0, 0, buf⟩ resp) :=
  exec_of_wellFormed (wellFormed_pmDecode_iff.mpr ⟨rfl, hlen⟩) h

theorem pmResponse_of_short_frame (h : FirstMarker buf i) (hshort : buf.length - i < 32) :
    pmResponse buf = .ok (raise .frameTruncated) := by
  rw [pmResponse_of_firstMarker h, if_pos hshort]

theorem pmResponse_of_valid_frame (h : FirstMarker buf i) (hframe : 32 ≤ buf.length - i)
    (hsum : frameSum buf i = wordAt buf (i + 30)) : pmResponse buf = .ok ⟨.ok, .pmSample (sampleAt buf i)⟩ := by
  rw [pmResponse_of_firstMarker h, if_neg (Nat.not_lt.mpr hframe), if_pos hsum]

end Answers

/-- Settles O16: the scan finds nothing, and a marker needs two bytes. -/
theorem pmWithoutMarkerIsFrameNotFound : Obligations.PmWithoutMarkerIsFrameNotFound := by
  have hnone : ∀ (buf : List Byte) (s : State), buf.length ≤ 128 → (∀ i, ¬ MarkerAt buf i) →
      exec (.pmDecode 0 buf) s = .next (s.deliver .pmu ⟨0, 0, buf⟩ ⟨.frameNotFound, .none⟩) :=
    fun _ s hlen h => exec_pmDecode_of_pmResponse s hlen (pmResponse_of_no_marker h)
  refine ⟨hnone, fun buf s hlen => hnone buf s (by omega) fun i hm => ?_⟩
  have := markerAt_lt hm
  omega

/-- Settles O17: the length check comes first after the match. -/
theorem pmShortFrameIsFrameTruncated : Obligations.PmShortFrameIsFrameTruncated := fun _ _ s hlen hfirst hshort =>
  exec_pmDecode_of_pmResponse s hlen (pmResponse_of_short_frame hfirst hshort)

/-- Settles O18: the sample is the one that stands at the marker. -/
theorem pmValidFrameAnswersItsWords : Obligations.PmValidFrameAnswersItsWords :=
  fun buf i s hlen hfirst hframe hsum => ⟨sampleAt buf i, sampleAt_word buf i,
    exec_pmDecode_of_pmResponse s hlen (pmResponse_of_valid_frame hfirst hframe hsum)⟩

/-- Settles O19: all 32 bytes of the frame are there, so the checksum is compared. -/
theorem pmWrongSumIsChecksumMismatch : Obligations.PmWrongSumIsChecksumMismatch :=
  fun _ _ s hlen hfirst hframe hsum => exec_pmDecode_of_wrong_sum s hlen hfirst (by omega) hsum

/-- Settles O21: the scan finds a first marker, from which fewer than 32 bytes are left, or none. -/
theorem pmShortBuffersNeverGiveASample : Obligations.PmShortBuffersNeverGiveASample := by
  intro buf s hlen
  have hlegal : buf.length ≤ 128 := by omega
  rcases scan_cases buf with ⟨i, _, hfirst⟩ | ⟨_, hnone⟩
  · exact ⟨.frameTruncated, pmShortFrameIsFrameTruncated buf i s hlegal hfirst (by omega), .inr rfl,
      iff_of_true rfl ⟨i, hfirst.1⟩⟩
  · exact ⟨.frameNotFound, pmWithoutMarkerIsFrameNotFound.1 buf s hlegal hnone, .inl rfl,
      iff_of_false (by decide) (not_exists.mpr hnone)⟩

/-! ## The first match decides (R128, R131) -/

section Prefix

variable {buf : List Byte} {i k n : Nat}

theorem firstMarker_take_iff (hn : i + 1 < n) : FirstMarker (buf.take n) i ↔ FirstMarker buf i := by
  have hsame : ∀ j, j ≤ i → (MarkerAt (buf.take n) j ↔ MarkerAt buf j) := fun j hj =>
    markerAt_congr (List.getElem?_take_of_lt (by omega)) (List.getElem?_take_of_lt (by omega))
  exact and_congr (hsame i le_rfl) (forall₂_congr fun j hj => not_congr (hsame j hj.le))

theorem wordAt_take (hk : k + 1 < n) : wordAt (buf.take n) k = wordAt buf k := by
  simp only [wordAt, List.getD_eq_getElem?_getD, List.getElem?_take_of_lt hk,
    List.getElem?_take_of_lt (Nat.lt_of_succ_lt hk)]

theorem frameSum_take (hn : i + 30 ≤ n) : frameSum (buf.take n) i = frameSum buf i := by
  rw [frameSum, List.drop_take, List.take_take, Nat.min_eq_left (by omega), frameSum]

theorem sampleAt_take (hn : i + 32 ≤ n) : sampleAt (buf.take n) i = sampleAt buf i := by
  simp (disch := omega) only [sampleAt, wordAt_take]

/-- The bytes up to the end of the first marker's frame fix the answer. -/
theorem pmResponse_take (h : FirstMarker buf i) : pmResponse (buf.take (i + 32)) = pmResponse buf := by
  have hlen : (buf.take (i + 32)).length - i < 32 ↔ buf.length - i < 32 := by
    rw [List.length_take]
    omega
  rw [pmResponse_of_firstMarker ((firstMarker_take_iff (by omega)).mpr h), pmResponse_of_firstMarker h,
    frameSum_take (by omega), wordAt_take (by omega), sampleAt_take le_rfl, if_congr hlen rfl rfl]

end Prefix

/-- Settles O20: both buffers get the answer of the prefix they share. -/
theorem pmFirstMatchDecides : Obligations.PmFirstMatchDecides := by
  intro buf buf' i s hlen hlen' hfirst _ _ hagree
  have hfirst' : FirstMarker buf' i := by
    rwa [← firstMarker_take_iff (n := i + 32) (by omega), ← hagree, firstMarker_take_iff (by omega)]
  obtain ⟨resp, hresp⟩ := pmResponse_ok buf
  have hresp' : pmResponse buf' = .ok resp := by
    rw [← pmResponse_take hfirst', ← hagree, pmResponse_take hfirst, hresp]
  exact ⟨resp, exec_pmDecode_of_pmResponse s hlen hresp, exec_pmDecode_of_pmResponse s hlen' hresp'⟩

end Sys2Proof.Machine

/-! PROOFS for the statements of spec/42_co2.md: the answer of CO2_DECODE by the length of the reply (R152, R153), and what it depends on (R155). -/

namespace Sys2Proof.Machine

/-! ## The answers of CO2_DECODE (R152, R153) -/

@[simp] theorem zext32_toNat (w : Word16) : (zext32 w).toNat = w.toNat :=
  BitVec.toNat_setWidth_of_le (by decide)

theorem zext32_be16 (hi lo : Byte) : zext32 (be16 hi lo) = BitVec.ofNat 32 (256 * hi.toNat + lo.toNat) := by
  rw [← be16_toNat, BitVec.ofNat_toNat, zext32]

section Answers

variable {arg : Nibble} {buf : List Byte}

theorem wellFormed_co2Decode_iff : (Instr.co2Decode arg buf).wellFormed = true ↔ arg = 0 ∧ buf.length ≤ 128 := by
  rw [Instr.wellFormed, Bool.and_eq_true, decide_eq_true_eq, decide_eq_true_eq, Config.bufMax]

theorem exec_co2Decode_of_co2Response {resp : Response} (s : State) (hlen : buf.length ≤ 128)
    (h : co2Response buf = .ok resp) : exec (.co2Decode 0 buf) s = .next (s.deliver .co2u ⟨1, 0, buf⟩ resp) :=
  exec_of_wellFormed (wellFormed_co2Decode_iff.mpr ⟨rfl, hlen⟩) h

theorem exec_co2Decode_of_illegal (s : State) (h : ¬ (arg = 0 ∧ buf.length ≤ 128)) :
    exec (.co2Decode arg buf) s = .next (s.deliver .co2u ⟨1, arg, buf⟩ ⟨.illegalRequest, .co2Value 0⟩) :=
  exec_of_not_wellFormed (mt wellFormed_co2Decode_iff.mp h)

end Answers

theorem co2Response_seven (r0 r1 r2 r3 r4 r5 r6 : Byte) :
    co2Response [r0, r1, r2, r3, r4, r5, r6] =
      .ok ⟨.ok, .co2Value (BitVec.ofNat 32 (256 * r3.toNat + r4.toNat))⟩ := by
  rw [← zext32_be16]
  exact co2Response_of_length rfl

/-- Settles O23: both lengths are legal, so the length check decides. -/
theorem co2RequestAnswersTheConcentration : Obligations.Co2RequestAnswersTheConcentration :=
  ⟨fun r0 r1 r2 r3 r4 r5 r6 s =>
      exec_co2Decode_of_co2Response s (show 7 ≤ 128 by decide) (co2Response_seven r0 r1 r2 r3 r4 r5 r6),
    fun _ s hlen hne => exec_co2Decode_of_co2Response s hlen (co2Response_of_other_length hne)⟩

/-! ## What the result depends on, and its range (R155) -/

section Dependence

variable {buf buf' : List Byte}

theorem wordAt_congr {k : Nat} (h : buf[k]? = buf'[k]?) (h' : buf[k + 1]? = buf'[k + 1]?) :
    wordAt buf k = wordAt buf' k := by
  simp only [wordAt, List.getD_eq_getElem?_getD, h, h']

theorem co2Response_congr (hlen : buf.length = buf'.length) (h3 : buf[3]? = buf'[3]?) (h4 : buf[4]? = buf'[4]?) :
    co2Response buf = co2Response buf' := by
  by_cases h : buf.length = 7
  · rw [co2Response_of_length h, co2Response_of_length (hlen ▸ h), wordAt_congr h3 h4]
  · rw [co2Response_of_other_length h, co2Response_of_other_length (hlen ▸ h)]

end Dependence

/-- The rule's value is an assembled word, or the 0 of an error. -/
theorem co2Response_value (buf : List Byte) :
    ∃ st v, co2Response buf = .ok ⟨st, .co2Value v⟩ ∧ v.toNat ≤ 65535 ∧ (st ≠ .ok → v = 0) := by
  by_cases h : buf.length = 7
  · refine ⟨.ok, _, co2Response_of_length h, ?_, fun hne => absurd rfl hne⟩
    rw [zext32_toNat]
    exact Nat.le_of_lt_succ (wordAt buf 3).isLt
  · exact ⟨.invalidResponseLength, 0, co2Response_of_other_length h, Nat.zero_le _, fun _ => rfl⟩

/-- Settles O24: legality looks at `arg` and the length alone, and the rule adds bytes 3 and 4. -/
theorem co2ResultDependsOnLengthAndTwoBytes : Obligations.Co2ResultDependsOnLengthAndTwoBytes := by
  constructor
  · intro buf buf' s hlen h3 h4
    by_cases hlegal : buf.length ≤ 128
    · obtain ⟨resp, hresp⟩ := co2Response_ok buf
      exact ⟨resp, exec_co2Decode_of_co2Response s hlegal hresp,
        exec_co2Decode_of_co2Response s (hlen ▸ hlegal) (co2Response_congr hlen h3 h4 ▸ hresp)⟩
    · exact ⟨_, exec_co2Decode_of_illegal s fun h => hlegal h.2,
        exec_co2Decode_of_illegal s fun h => hlegal (hlen ▸ h.2)⟩
  · intro arg buf s
    by_cases hlegal : arg = 0 ∧ buf.length ≤ 128
    · obtain ⟨st, v, hresp, hrange⟩ := co2Response_value buf
      obtain ⟨rfl, hlen⟩ := hlegal
      exact ⟨st, v, exec_co2Decode_of_co2Response s hlen hresp, hrange⟩
    · exact ⟨.illegalRequest, 0, exec_co2Decode_of_illegal s hlegal, Nat.zero_le _, fun _ => rfl⟩

end Sys2Proof.Machine

/-! PROOFS for the statements of spec/43_thermal.md: CRC failures (R172, R173), and the two conversions as single roundings of exact rationals (R175 to R179). -/

namespace Sys2Proof.Machine

/-! ## CRC failures -/

/-- Settles O25: six bytes with `arg` 0 are legal, and the rule compares the temperature group's CRC first. -/
theorem thermalCrcFailuresEndTheOperation : Obligations.ThermalCrcFailuresEndTheOperation := by
  intro b0 b1 b2 b3 b4 b5 s
  constructor
  · intro htemp
    rw [exec_thDecode, thResponse_six, if_pos htemp]
    exact serve_of_legal rfl
  · intro htemp hhum
    rw [exec_thDecode, thResponse_six, if_neg (not_not_intro htemp), if_pos hhum]
    exact serve_of_legal rfl

/-! ## The magnitude of a rounded fraction (R14) -/

/-- The absolute value that a finite value stands for. -/
def Fp.mag (x : Fp) : ℚ := x.num / x.den

@[simp] theorem roundFrac_neg (f : FpFormat) (neg : Bool) (num den : Nat) : (roundFrac f neg num den).neg = neg := by
  unfold roundFrac
  split <;> rfl

theorem roundFrac_den_pos (f : FpFormat) (neg : Bool) (num den : Nat) : 0 < (roundFrac f neg num den).den := by
  unfold roundFrac
  split
  · exact Nat.one_pos
  · exact Nat.two_pow_pos _

/-- A whole number that fits the significand is kept. -/
theorem roundFrac_mag_of_whole {f : FpFormat} (neg : Bool) {n : Nat} (h : n < 2 ^ f.prec) :
    (roundFrac f neg n 1).mag = n := by
  obtain rfl | hn := n.eq_zero_or_pos
  · simp [roundFrac, Fp.mag]
  have hlog : n.log2 < f.prec := (Nat.log2_lt hn.ne').mpr h
  have hdown : scaleDown f n 1 = 0 := by
    unfold scaleDown
    omega
  rw [roundFrac_of_pos f neg hn, hdown]
  simp [Fp.mag, roundDiv, Nat.mod_one]

/-- One rounding in the normal range has a relative error of at most half a unit of the significand's last place. -/
theorem roundFrac_mag_error {f : FpFormat} (hf : 0 < f.prec) (hmax : 0 < f.maxScale) (neg : Bool) {num den : Nat}
    (hd : 0 < den) (hnormal : num = 0 ∨ (2 : ℚ) ^ (f.prec - 1) ≤ num / den * 2 ^ f.maxScale) :
    |(roundFrac f neg num den).mag - num / den| ≤ num / den / 2 ^ f.prec := by
  obtain rfl | hn := num.eq_zero_or_pos
  · simp [roundFrac, Fp.mag]
  have hlo : 2 ^ (f.prec - 1) * (den * 2 ^ scaleDown f num den) ≤ num * 2 ^ scaleUp f num den := by
    by_cases hup : scaleUp f num den = f.maxScale
    · have hdown : scaleDown f num den = 0 := by
        have := scaleUp_eq_zero_or_scaleDown_eq_zero f num den
        omega
      have hle := hnormal.resolve_left hn.ne'
      rw [div_mul_eq_mul_div, le_div_iff₀ (by positivity)] at hle
      rw [hup, hdown, pow_zero, mul_one]
      exact_mod_cast hle
    · exact pow_prec_le_scaled hn hd hup
  have herr := (roundDiv_error (num * 2 ^ scaleUp f num den) (d := den * 2 ^ scaleDown f num den) (by positivity)).1
  rw [roundFrac_of_pos f neg hn, Fp.mag]
  generalize roundDiv _ _ = m at *
  generalize scaleUp f num den = up at *
  generalize scaleDown f num den = down at *
  have hhalf : 2 * (2 : ℚ) ^ (f.prec - 1) = 2 ^ f.prec := by rw [← pow_succ', Nat.sub_add_cancel hf]
  have hloQ : (2 : ℚ) ^ (f.prec - 1) * (den * 2 ^ down) ≤ num * 2 ^ up := by exact_mod_cast hlo
  have herrQ : 2 * |(m * (den * 2 ^ down) : ℚ) - num * 2 ^ up| ≤ den * 2 ^ down := by exact_mod_cast herr
  have hdQ : (0 : ℚ) < den := by exact_mod_cast hd
  have hval : ((m * 2 ^ down : Nat) : ℚ) / ((2 ^ up : Nat) : ℚ) - num / den
      = (m * (den * 2 ^ down) - num * 2 ^ up) / (den * 2 ^ up) := by
    push_cast
    field_simp
  rw [hval, abs_div, abs_of_pos (a := (den : ℚ) * 2 ^ up) (by positivity), div_le_iff₀ (by positivity), div_div,
    div_mul_eq_mul_div, le_div_iff₀ (by positivity), ← hhalf]
  calc |(m * (den * 2 ^ down) : ℚ) - num * 2 ^ up| * (den * (2 * 2 ^ (f.prec - 1)))
      = 2 * |(m * (den * 2 ^ down) : ℚ) - num * 2 ^ up| * (2 ^ (f.prec - 1) * den) := by ring
    _ ≤ den * 2 ^ down * (2 ^ (f.prec - 1) * den) := by gcongr
    _ = 2 ^ (f.prec - 1) * (den * 2 ^ down) * den := by ring
    _ ≤ num * 2 ^ up * den := by gcongr
    _ = num * (den * 2 ^ up) := by ring

/-- The only whole number within half a unit is the rounded quotient. -/
theorem roundDiv_eq_of_near {n d m : Nat} (h : 2 * |(m * d : Int) - n| < d) : roundDiv n d = m := by
  have hd : 0 < d := by
    have := abs_nonneg ((m * d : Int) - n)
    omega
  have herr := (roundDiv_error n hd).1
  have htri := abs_sub_le (roundDiv n d * d : Int) n (m * d)
  rw [abs_sub_comm (n : Int), ← sub_mul, abs_mul, Nat.abs_cast] at htri
  have hgap : |(roundDiv n d - m : Int)| * d < 1 * d := by omega
  have hzero := Int.abs_lt_one_iff.mp (lt_of_mul_lt_mul_right hgap d.cast_nonneg)
  omega

/-- The scale that puts `num/den` in the significand's range is the one taken. -/
theorem scale_eq {f : FpFormat} (hf : 0 < f.prec) {num den up : Nat} (hn : 0 < num) (hd : 0 < den) (hup : up ≤ f.maxScale)
    (hlo : 2 ^ (f.prec - 1) * den ≤ num * 2 ^ up) (hhi : num * 2 ^ up < 2 ^ f.prec * den) :
    scaleUp f num den = up ∧ scaleDown f num den = 0 := by
  obtain ⟨hge, hlt⟩ := expGap_spec hn hd
  have h1 : num.log2 + up < f.prec + expGap num den := by
    refine (Nat.pow_lt_pow_iff_right one_lt_two).mp (Nat.lt_of_mul_lt_mul_left (a := den) ?_)
    calc den * 2 ^ (num.log2 + up) = den * 2 ^ num.log2 * 2 ^ up := by rw [pow_add, mul_assoc]
      _ ≤ num * 2 ^ expGap num den * 2 ^ up := by gcongr
      _ = num * 2 ^ up * 2 ^ expGap num den := by ring
      _ < 2 ^ f.prec * den * 2 ^ expGap num den := by gcongr
      _ = den * 2 ^ (f.prec + expGap num den) := by ring
  have h2 : f.prec - 1 + expGap num den < num.log2 + 1 + up := by
    refine (Nat.pow_lt_pow_iff_right one_lt_two).mp (Nat.lt_of_mul_lt_mul_left (a := den) ?_)
    calc den * 2 ^ (f.prec - 1 + expGap num den) = 2 ^ (f.prec - 1) * den * 2 ^ expGap num den := by ring
      _ ≤ num * 2 ^ up * 2 ^ expGap num den := by gcongr
      _ = num * 2 ^ expGap num den * 2 ^ up := by ring
      _ < den * 2 ^ (num.log2 + 1) * 2 ^ up := by gcongr
      _ = den * 2 ^ (num.log2 + 1 + up) := by ring
  unfold scaleUp scaleDown
  omega

/-- A fraction strictly within half a unit of `m` units rounds to `m` units. -/
theorem roundFrac_eq_of_near {f : FpFormat} (hf : 0 < f.prec) (neg : Bool) {num den m up : Nat} (hd : 0 < den)
    (hup : up ≤ f.maxScale) (hlo : (2 : ℚ) ^ (f.prec - 1) ≤ num / den * 2 ^ up)
    (hhi : (num / den * 2 ^ up : ℚ) < 2 ^ f.prec) (hm : |(num / den * 2 ^ up : ℚ) - m| < 1 / 2) :
    roundFrac f neg num den = ⟨neg, m, 2 ^ up⟩ := by
  have hdQ : (0 : ℚ) < den := by exact_mod_cast hd
  have hn : 0 < num := by
    rw [Nat.pos_iff_ne_zero]
    rintro rfl
    have : (0 : ℚ) < 2 ^ (f.prec - 1) := by positivity
    simp only [Nat.cast_zero, zero_div, zero_mul] at hlo
    linarith
  rw [div_mul_eq_mul_div] at hlo hhi hm
  rw [le_div_iff₀ hdQ] at hlo
  rw [div_lt_iff₀ hdQ] at hhi
  obtain ⟨hsup, hsdown⟩ := scale_eq hf hn hd hup (by exact_mod_cast hlo) (by exact_mod_cast hhi)
  have hnear : 2 * |(m * den : Int) - (num * 2 ^ up : Nat)| < den := by
    have hscale : (m * den : ℚ) - num * 2 ^ up = -((num * 2 ^ up / den - m) * den) := by
      field_simp
      ring
    have : 2 * |(m * den : ℚ) - num * 2 ^ up| < den := by
      rw [hscale, abs_neg, abs_mul, abs_of_pos hdQ]
      nlinarith
    exact_mod_cast this
  rw [roundFrac_of_pos f neg hn, hsup, hsdown, pow_zero, mul_one, mul_one, roundDiv_eq_of_near hnear]

/-! ## The binary32 values nearest the multiples of 5/13107

`175 * raw / 65535 - 45` is `5 * (7 * raw - 117963) / 13107` and `100 * raw / 65535` is `5 * (4 * raw) / 13107`. As 13107 is odd and no multiple of 5, no scaled multiple is nearer than `1/26214` to the middle of two whole numbers, and none is a power of two: so a relative error of `2 ^ -39` before the rounding cannot change its result. -/

/-- The binary32 value nearest `5 * k / 13107`, as a bit pattern. -/
def fifths (k : Int) : Word32 := (roundFrac .binary32 (decide (k < 0)) (5 * k.natAbs) 13107).pack32

/-- The scale of a positive multiple below 256: it fills the significand and stays a whole unit below its bound. -/
theorem exists_fifths_scale {j : Nat} (hpos : 0 < j) (hlt : 5 * j < 13107 * 2 ^ 8) :
    ∃ up ≤ 149, 2 ^ 23 * 13107 ≤ 5 * j * 2 ^ up ∧ 5 * j * 2 ^ up < 13107 * (2 ^ 24 - 1) := by
  have h149 : 2 ^ 23 * 13107 ≤ 5 * j * 2 ^ 149 := by omega
  have hex : ∃ up, 2 ^ 23 * 13107 ≤ 5 * j * 2 ^ up := ⟨149, h149⟩
  refine ⟨Nat.find hex, Nat.find_min' hex h149, Nat.find_spec hex, ?_⟩
  have hge : 16 ≤ Nat.find hex := by
    rw [Nat.le_find_iff]
    intro up hup hle
    have : 2 ^ up ≤ 2 ^ 15 := Nat.pow_le_pow_right two_pos (by omega)
    have := Nat.mul_le_mul_left (5 * j) this
    omega
  have hprev := Nat.find_min hex (m := Nat.find hex - 1) (by omega)
  obtain ⟨c, hc⟩ := Nat.exists_eq_add_of_le' hge
  rw [hc, show c + 16 - 1 = c + 15 by omega, pow_add, ← mul_assoc] at hprev
  rw [hc, pow_add, ← mul_assoc]
  omega

/-- As 13107 is odd, no fraction over it lies midway between two whole numbers. -/
theorem roundDiv_13107_error (n : Nat) : |(n / 13107 : ℚ) - roundDiv n 13107| ≤ 1 / 2 - 1 / 26214 := by
  have herr := (roundDiv_error n (d := 13107) (by norm_num)).1
  have hodd : |(roundDiv n 13107 * (13107 : Nat) : Int) - n| ≤ 6553 := by omega
  have hodd' : |(roundDiv n 13107 * 13107 : ℚ) - n| ≤ 6553 := by exact_mod_cast hodd
  rw [abs_le] at hodd' ⊢
  constructor <;> linarith

/-- All fractions close enough to one multiple have its rounding. -/
theorem exists_roundFrac_eq_of_close {j : Nat} (hpos : 0 < j) (hlt : 5 * j < 13107 * 2 ^ 8) :
    ∃ m up : Nat, 2 ^ 23 ≤ m ∧ m < 2 ^ 24 ∧ up ≤ 149 ∧ ∀ (neg : Bool) (num den : Nat), 0 < den →
      |(num / den : ℚ) - 5 * j / 13107| ≤ 5 * j / 13107 / 2 ^ 39 →
        roundFrac .binary32 neg num den = ⟨neg, m, 2 ^ up⟩ := by
  obtain ⟨up, hup, hlo, hhi⟩ := exists_fifths_scale hpos hlt
  have hne : 5 * j * 2 ^ up ≠ 2 ^ 23 * 13107 := fun h => by
    have := congrArg (· % 5) h
    simp [mul_assoc] at this
  refine ⟨roundDiv (5 * j * 2 ^ up) 13107, up, le_roundDiv_of_mul_le (by norm_num) hlo, ?_, hup, ?_⟩
  · have := roundDiv_le_of_lt_mul hhi
    omega
  intro neg num den hd hclose
  have herr := roundDiv_13107_error (5 * j * 2 ^ up)
  generalize roundDiv (5 * j * 2 ^ up) 13107 = m at *
  have hloQ : ((2 ^ 23 * 13107 + 1 : Nat) : ℚ) ≤ (5 * j * 2 ^ up : Nat) := by
    exact_mod_cast Nat.lt_of_le_of_ne hlo hne.symm
  have hhiQ : ((5 * j * 2 ^ up : Nat) : ℚ) < (13107 * (2 ^ 24 - 1) : Nat) := by exact_mod_cast hhi
  have hscaled : |(num / den * 2 ^ up : ℚ) - (5 * j * 2 ^ up : Nat) / 13107| ≤ (5 * j * 2 ^ up : Nat) / 13107 / 2 ^ 39 :=
    calc |(num / den * 2 ^ up : ℚ) - (5 * j * 2 ^ up : Nat) / 13107|
        = |((num / den : ℚ) - 5 * j / 13107) * 2 ^ up| := by push_cast; ring_nf
      _ = |(num / den : ℚ) - 5 * j / 13107| * 2 ^ up := by rw [abs_mul, abs_of_pos (a := (2 : ℚ) ^ up) (by positivity)]
      _ ≤ 5 * j / 13107 / 2 ^ 39 * 2 ^ up := by gcongr
      _ = (5 * j * 2 ^ up : Nat) / 13107 / 2 ^ 39 := by
          push_cast
          ring
  generalize ((5 * j * 2 ^ up : Nat) : ℚ) = n at *
  generalize hy : (num / den * 2 ^ up : ℚ) = y at *
  obtain ⟨hylo, hyhi⟩ := abs_le.mp hscaled
  obtain ⟨hmlo, hmhi⟩ := abs_le.mp herr
  norm_num at hloQ hhiQ
  refine roundFrac_eq_of_near (by decide) neg hd hup ?_ ?_ (abs_lt.mpr ⟨?_, ?_⟩) <;> rw [hy]
  · show (2 : ℚ) ^ 23 ≤ y
    linarith
  · show y < (2 : ℚ) ^ 24
    linarith
  · linarith
  · linarith

/-- A relative error of `2 ^ -39` does not change the rounding. -/
theorem roundFrac_eq_fifths {k : Int} (hlt : 5 * k.natAbs < 13107 * 2 ^ 8) {num den : Nat} (hd : 0 < den)
    (hclose : |(num / den : ℚ) - 5 * k.natAbs / 13107| ≤ 5 * k.natAbs / 13107 / 2 ^ 39) :
    (roundFrac .binary32 (decide (k < 0)) num den).pack32 = fifths k := by
  unfold fifths
  obtain hzero | hpos := k.natAbs.eq_zero_or_pos
  · have hdQ : (den : ℚ) ≠ 0 := by exact_mod_cast hd.ne'
    have hnum : num = 0 := by simpa [hzero, hdQ] using hclose
    simp [hnum, hzero, roundFrac]
  · obtain ⟨m, up, -, -, -, h⟩ := exists_roundFrac_eq_of_close hpos hlt
    rw [h _ _ _ hd hclose, h _ (5 * k.natAbs) 13107 (by norm_num)]
    push_cast
    rw [sub_self, abs_zero]
    positivity

/-! ## The bit pattern of a normal value (R73) -/

theorem pack32_toNat_of_normal (neg : Bool) {m up : Nat} (hlo : 2 ^ 23 ≤ m) (hhi : m < 2 ^ 24) (hup : up ≤ 149) :
    (Fp.pack32 ⟨neg, m, 2 ^ up⟩).toNat = neg.toNat * 2 ^ 31 + (150 - up) * 2 ^ 23 + (m - 2 ^ 23) := by
  have hm : m.log2 = 23 := (Nat.log2_eq_iff (by omega)).mpr ⟨hlo, hhi⟩
  simp only [Fp.pack32, hm, Nat.log2_two_pow, pow2_eq]
  rw [if_neg (by omega), if_neg (by omega), if_neg (by omega), Nat.mul_div_cancel _ (Nat.two_pow_pos 23), BitVec.toNat_ofNat]
  cases neg <;> simp only [Bool.toNat, cond, if_true, if_false, Bool.false_eq_true] <;> omega

/-- The three fields of the pattern are the sign, the exponent and the significand without its leading bit. -/
theorem pack32_fields_of_normal (neg : Bool) {m up : Nat} (hlo : 2 ^ 23 ≤ m) (hhi : m < 2 ^ 24) (hup : up ≤ 149) :
    (Fp.pack32 ⟨neg, m, 2 ^ up⟩).getLsbD 31 = neg ∧
    ((Fp.pack32 ⟨neg, m, 2 ^ up⟩).extractLsb' 23 8).toNat = 150 - up ∧
    ((Fp.pack32 ⟨neg, m, 2 ^ up⟩).extractLsb' 0 23).toNat = m - 2 ^ 23 := by
  have hbits := pack32_toNat_of_normal neg hlo hhi hup
  generalize Fp.pack32 _ = w at *
  rw [show w.getLsbD 31 = w.msb from rfl, BitVec.msb_eq_decide, BitVec.extractLsb'_toNat, BitVec.extractLsb'_toNat,
    Nat.shiftRight_eq_div_pow, Nat.shiftRight_zero, hbits]
  cases neg <;> simp only [Bool.toNat, cond, decide_eq_true_eq, decide_eq_false_iff_not] <;> omega

theorem fp32Value_pack32_of_normal (neg : Bool) {m up : Nat} (hlo : 2 ^ 23 ≤ m) (hhi : m < 2 ^ 24) (hup : up ≤ 149) :
    fp32Value (Fp.pack32 ⟨neg, m, 2 ^ up⟩) = ⟨neg, m, 2 ^ up⟩ := by
  obtain ⟨hsign, hexp, hfrac⟩ := pack32_fields_of_normal neg hlo hhi hup
  simp only [fp32Value, hsign, hexp, hfrac, pow2_eq]
  rw [if_neg (by omega), Nat.sub_add_cancel hlo, Nat.sub_eq_zero_of_le (by omega), pow_zero, mul_one,
    Nat.sub_sub_self (by omega)]

/-! ## The conversions as single roundings (R175 to R178) -/

/-- The quotient that both conversions begin with: `c * raw / 65535`, a multiplication and a division of one format. -/
def sensorQuotient (f : FpFormat) (c : Nat) (raw : Word16) : Fp :=
  Fp.div f (Fp.mul f (Fp.ofNat c) (Fp.ofNat raw.toNat)) (Fp.ofNat 65535)

/-- The product is exact, so only the division rounds. -/
theorem exists_sensorQuotient_eq {f : FpFormat} {c : Nat} {raw : Word16} (h : c * raw.toNat < 2 ^ f.prec) :
    ∃ num den : Nat, 0 < den ∧ (num / den : ℚ) = c * raw.toNat / 65535 ∧
      sensorQuotient f c raw = roundFrac f false num den := by
  have hmul : Fp.mul f (Fp.ofNat c) (Fp.ofNat raw.toNat) = roundFrac f false (c * raw.toNat) 1 := rfl
  have hmag := roundFrac_mag_of_whole false h
  refine ⟨_, _, ?_, ?_, by rw [sensorQuotient, Fp.div, hmul, roundFrac_neg]; rfl⟩
  · exact Nat.mul_pos (roundFrac_den_pos ..) (by decide)
  · rw [Fp.mag] at hmag
    simp only [Fp.ofNat]
    push_cast at hmag ⊢
    rw [mul_one, ← div_div, hmag]

theorem product_lt_pow_prec (raw : Word16) {f : FpFormat} (hf : 24 ≤ f.prec) {c : Nat} (hc : c ≤ 175) :
    c * raw.toNat < 2 ^ f.prec :=
  calc c * raw.toNat ≤ 175 * 65535 := Nat.mul_le_mul hc (by omega)
    _ < 2 ^ 24 := by norm_num
    _ ≤ 2 ^ f.prec := Nat.pow_le_pow_right two_pos hf

/-- The division's relative error in either format. -/
theorem sensorQuotient_error {f : FpFormat} (hf : 24 ≤ f.prec) (hmax : f.prec + 16 ≤ f.maxScale) {c : Nat} (hpos : 0 < c)
    (hc : c ≤ 175) (raw : Word16) :
    |(sensorQuotient f c raw).mag - c * raw.toNat / 65535| ≤ c * raw.toNat / 65535 / 2 ^ f.prec := by
  obtain ⟨num, den, hden, hratio, heq⟩ := exists_sensorQuotient_eq (product_lt_pow_prec raw hf hc)
  rw [heq, ← hratio]
  refine roundFrac_mag_error (by omega) (by omega) false hden ?_
  obtain hzero | hraw := raw.toNat.eq_zero_or_pos
  · left
    simpa [hzero, hden.ne'] using hratio
  · right
    have h1 : (1 : ℚ) ≤ c * raw.toNat := by exact_mod_cast Nat.mul_pos hpos hraw
    rw [hratio]
    calc (2 : ℚ) ^ (f.prec - 1) ≤ 1 / 65535 * 2 ^ (f.prec + 16) := by
          rw [show f.prec + 16 = f.prec - 1 + 17 by omega, pow_add]
          have : (0 : ℚ) < 2 ^ (f.prec - 1) := by positivity
          linarith
      _ ≤ c * raw.toNat / 65535 * 2 ^ f.maxScale := by gcongr; norm_num

@[simp] theorem sensorQuotient_neg (f : FpFormat) (c : Nat) (raw : Word16) : (sensorQuotient f c raw).neg = false := by
  simp [sensorQuotient, Fp.div, Fp.mul, Fp.ofNat]

theorem sensorQuotient_den_pos (f : FpFormat) (c : Nat) (raw : Word16) : 0 < (sensorQuotient f c raw).den :=
  roundFrac_den_pos ..

/-- Subtracting a whole number from a value not below zero rounds the distance and takes the sign of the difference. -/
theorem exists_sub_ofNat_eq (f : FpFormat) {x : Fp} (hneg : x.neg = false) (hden : 0 < x.den) {n : Nat} (hne : x.mag ≠ n) :
    ∃ num : Nat, (num / x.den : ℚ) = |x.mag - n| ∧ Fp.sub f x (Fp.ofNat n) = roundFrac f (decide (x.mag < n)) num x.den := by
  have hd : (0 : ℚ) < x.den := by exact_mod_cast hden
  have hsub : Fp.sub f x (Fp.ofNat n) = addSigned f false x.num true (n * x.den) x.den := by
    simp [Fp.sub, Fp.ofNat, hneg]
  have hval : x.mag - n = (x.num - n * x.den) / x.den := by rw [Fp.mag, sub_div, mul_div_cancel_right₀ _ hd.ne']
  obtain hlt | hgt : x.mag < n ∨ n < x.mag := lt_or_gt_of_ne hne
  · have hlt' : x.num < n * x.den := by
      rw [Fp.mag, div_lt_iff₀ hd] at hlt
      exact_mod_cast hlt
    refine ⟨n * x.den - x.num, ?_, ?_⟩
    · rw [abs_of_neg (sub_neg.mpr hlt), hval, Nat.cast_sub hlt'.le]
      push_cast
      ring
    · rw [hsub, addSigned, if_neg Bool.false_ne_true, if_pos hlt', decide_eq_true hlt]
  · have hgt' : n * x.den < x.num := by
      rw [Fp.mag, lt_div_iff₀ hd] at hgt
      exact_mod_cast hgt
    refine ⟨x.num - n * x.den, ?_, ?_⟩
    · rw [abs_of_pos (sub_pos.mpr hgt), hval, Nat.cast_sub hgt'.le]
      push_cast
      ring
    · rw [hsub, addSigned, if_neg Bool.false_ne_true, if_neg hgt'.not_gt, if_pos hgt', decide_eq_false hgt.not_gt]

/-! The humidity in either precision: the exact quotient is `5 * (4 * raw) / 13107`. -/

theorem humidity_bound (raw : Word16) : 5 * (4 * raw.toNat : Int).natAbs < 13107 * 2 ^ 8 := by omega

theorem humidity_exact (raw : Word16) : (100 * raw.toNat / 65535 : ℚ) = 5 * (4 * raw.toNat : Int).natAbs / 13107 := by
  rw [show (4 * raw.toNat : Int).natAbs = 4 * raw.toNat by omega]
  push_cast
  ring

theorem decide_humidity_neg (raw : Word16) : decide ((4 * raw.toNat : Int) < 0) = false := decide_eq_false (by omega)

/-- One rounding of a fraction near the exact humidity. -/
theorem pack_roundFrac_humidity (raw : Word16) {num den : Nat} (hd : 0 < den)
    (hclose : |(num / den : ℚ) - 100 * raw.toNat / 65535| ≤ 100 * raw.toNat / 65535 / 2 ^ 39) :
    (roundFrac .binary32 false num den).pack32 = fifths (4 * raw.toNat) := by
  rw [humidity_exact] at hclose
  rw [← decide_humidity_neg raw]
  exact roundFrac_eq_fifths (humidity_bound raw) hd hclose

theorem convH_binary32_eq_fifths (raw : Word16) : convH .binary32 raw = fifths (4 * raw.toNat) := by
  obtain ⟨num, den, hden, hratio, heq⟩ :=
    exists_sensorQuotient_eq (product_lt_pow_prec raw (f := .binary32) (by decide) (c := 100) (by decide))
  push_cast at hratio
  calc convH .binary32 raw = (roundFrac .binary32 false num den).pack32 := congrArg Fp.pack32 heq
    _ = fifths (4 * raw.toNat) := pack_roundFrac_humidity raw hden (by rw [hratio, sub_self, abs_zero]; positivity)

theorem convH_binary64_eq_fifths (raw : Word16) : convH .binary64 raw = fifths (4 * raw.toNat) := by
  have herr := sensorQuotient_error (f := .binary64) (by decide) (by decide) (c := 100) (by decide) (by decide) raw
  change _ ≤ _ / (2 : ℚ) ^ 53 at herr
  push_cast at herr
  calc convH .binary64 raw = (sensorQuotient .binary64 100 raw).toFp32 := rfl
    _ = fifths (4 * raw.toNat) := by
      rw [Fp.toFp32, sensorQuotient_neg]
      refine pack_roundFrac_humidity raw (sensorQuotient_den_pos ..) (herr.trans ?_)
      gcongr <;> norm_num

/-- Settles O54: in either precision the result is the exact humidity's rounding. -/
theorem precisionsAgreeOnHumidity : Obligations.PrecisionsAgreeOnHumidity := fun raw =>
  (convH_binary32_eq_fifths raw).trans (convH_binary64_eq_fifths raw).symm

/-! The temperature in BINARY64: the exact difference is `5 * (7 * raw - 117963) / 13107`, and only codes 16851 and 16852 are so near zero that the division's error could count. -/

/-- The exact temperature `175 * raw / 65535 - 45`, in units of 5/13107. -/
def temperatureFifths (raw : Word16) : Int := 7 * raw.toNat - 117963

theorem temperature_exact (raw : Word16) : (175 * raw.toNat / 65535 - 45 : ℚ) = 5 * temperatureFifths raw / 13107 := by
  rw [temperatureFifths]
  push_cast
  ring

theorem temperatureFifths_ne_zero (raw : Word16) : temperatureFifths raw ≠ 0 := by
  unfold temperatureFifths
  omega

theorem temperatureFifths_bound (raw : Word16) : 5 * (temperatureFifths raw).natAbs < 13107 * 2 ^ 8 := by
  unfold temperatureFifths
  omega

theorem abs_temperature_exact (raw : Word16) :
    |(175 * raw.toNat / 65535 - 45 : ℚ)| = 5 * (temperatureFifths raw).natAbs / 13107 := by
  rw [temperature_exact, abs_div, abs_mul, Nat.cast_natAbs, Int.cast_abs]
  norm_num

theorem temperature_lt_iff (raw : Word16) : (175 * raw.toNat / 65535 : ℚ) < 45 ↔ temperatureFifths raw < 0 := by
  rw [← sub_neg, temperature_exact, div_lt_iff₀ (by norm_num), zero_mul]
  exact_mod_cast show 5 * temperatureFifths raw < 0 ↔ temperatureFifths raw < 0 by omega

theorem temperatureQuotient_error {f : FpFormat} (hf : 24 ≤ f.prec) (hmax : f.prec + 16 ≤ f.maxScale) (raw : Word16) :
    |(sensorQuotient f 175 raw).mag - 175 * raw.toNat / 65535| ≤ 175 * raw.toNat / 65535 / 2 ^ f.prec := by
  exact_mod_cast sensorQuotient_error hf hmax (c := 175) (by decide) le_rfl raw

/-- An error smaller than the distance from `b` leaves the side of `b`. -/
theorem lt_iff_lt_of_close {a b e : ℚ} (h : |e - a| < |a - b|) : e < b ↔ a < b := by
  obtain ⟨hlo, hhi⟩ := abs_lt.mp h
  obtain hlt | hge := lt_or_ge a b
  · rw [abs_of_neg (sub_neg.mpr hlt)] at hhi
    exact ⟨fun _ => hlt, fun _ => by linarith⟩
  · rw [abs_of_nonneg (sub_nonneg.mpr hge)] at hlo
    exact ⟨fun _ => by linarith, fun hlt => absurd hlt hge.not_gt⟩

/-- The last operation rounds the quotient's distance from 45, with the exact temperature's sign. -/
theorem exists_temperature_difference (f : FpFormat) {raw : Word16}
    (hclose : |(sensorQuotient f 175 raw).mag - 175 * raw.toNat / 65535| < |(175 * raw.toNat / 65535 - 45 : ℚ)|) :
    ∃ num den : Nat, 0 < den ∧ (num / den : ℚ) = |(sensorQuotient f 175 raw).mag - 45| ∧
      Fp.sub f (sensorQuotient f 175 raw) (Fp.ofNat 45) = roundFrac f (decide (temperatureFifths raw < 0)) num den := by
  have hne : (sensorQuotient f 175 raw).mag ≠ 45 := fun h => by
    rw [h, abs_sub_comm] at hclose
    exact lt_irrefl _ hclose
  have hden := sensorQuotient_den_pos f 175 raw
  obtain ⟨num, hnum, hsub⟩ := exists_sub_ofNat_eq f (sensorQuotient_neg f 175 raw) hden (n := 45) (by exact_mod_cast hne)
  refine ⟨num, _, hden, by exact_mod_cast hnum, ?_⟩
  rw [hsub, decide_eq_decide.mpr]
  exact_mod_cast (lt_iff_lt_of_close hclose).trans (temperature_lt_iff raw)

/-- An error moves the distance from `b` by no more than itself. -/
theorem abs_distance_sub_le {a e err : ℚ} (h : |e - a| ≤ err) (b : ℚ) : |(|e - b| - |a - b|)| ≤ err :=
  (abs_abs_sub_abs_le (e - b) (a - b)).trans (by rwa [sub_sub_sub_cancel_right])

/-- An error of the quotient `a` and one of the difference leave a relative error below `2 ^ -39`, when the difference from 45 is not small. -/
theorem difference_error {a e t : ℚ} (hfar : 40 / 13107 ≤ |a - 45|) (he : |e - a| ≤ a / 2 ^ 53)
    (ht : |t - (|e - 45|)| ≤ |e - 45| / 2 ^ 53) : |t - (|a - 45|)| ≤ |a - 45| / 2 ^ 39 := by
  have ha : a - 45 ≤ |a - 45| := le_abs_self _
  have hshift := abs_distance_sub_le he 45
  have htri := abs_sub_le t (|e - 45|) (|a - 45|)
  have := (abs_le.mp hshift).2
  linarith

/-- Away from zero the two errors are too small for the last rounding to tell. -/
theorem convT_binary64_eq_fifths_of_far {raw : Word16} (hfar : 8 ≤ (temperatureFifths raw).natAbs) :
    convT .binary64 raw = fifths (temperatureFifths raw) := by
  have hdist : (40 / 13107 : ℚ) ≤ |(175 * raw.toNat / 65535 - 45 : ℚ)| := by
    rw [abs_temperature_exact]
    have : (8 : ℚ) ≤ (temperatureFifths raw).natAbs := by exact_mod_cast hfar
    linarith
  have herr := temperatureQuotient_error (f := .binary64) (by decide) (by decide) raw
  change _ ≤ _ / (2 : ℚ) ^ 53 at herr
  have hrange : (raw.toNat : ℚ) ≤ 65535 := by exact_mod_cast Nat.le_of_lt_succ raw.isLt
  obtain ⟨num, den, hden, hratio, hsub⟩ := exists_temperature_difference .binary64 (raw := raw) (by linarith)
  have hdiff : |(roundFrac .binary64 (decide (temperatureFifths raw < 0)) num den).mag - num / den| ≤ num / den / 2 ^ 53 := by
    refine roundFrac_mag_error (f := .binary64) (by decide) (by decide) _ hden (.inr ?_)
    have hnear := (abs_le.mp (abs_distance_sub_le herr 45)).1
    rw [hratio]
    calc (2 : ℚ) ^ 52 = 1 / 2 ^ 10 * 2 ^ 62 := by norm_num
      _ ≤ |(sensorQuotient .binary64 175 raw).mag - 45| * 2 ^ 1074 := by
        gcongr
        · linarith
        · norm_num
        · norm_num
  calc convT .binary64 raw = (Fp.sub .binary64 (sensorQuotient .binary64 175 raw) (Fp.ofNat 45)).toFp32 := rfl
    _ = fifths (temperatureFifths raw) := by
      rw [hsub, Fp.toFp32, roundFrac_neg]
      refine roundFrac_eq_fifths (temperatureFifths_bound raw) (roundFrac_den_pos ..) ?_
      rw [hratio] at hdiff
      rw [← abs_temperature_exact]
      exact difference_error hdist herr hdiff

theorem convT_binary64_eq_fifths (raw : Word16) : convT .binary64 raw = fifths (temperatureFifths raw) := by
  by_cases hfar : 8 ≤ (temperatureFifths raw).natAbs
  · exact convT_binary64_eq_fifths_of_far hfar
  · have hraw : raw = 16851 ∨ raw = 16852 := by
      unfold temperatureFifths at hfar
      rw [← BitVec.toNat_inj, ← BitVec.toNat_inj]
      show raw.toNat = 16851 ∨ raw.toNat = 16852
      omega
    obtain rfl | rfl := hraw <;> decide +kernel

/-- The fraction `5 * k / 13107` over the statement's denominator. -/
theorem roundFrac_65535_eq_fifths {k : Int} (hlt : 5 * k.natAbs < 13107 * 2 ^ 8) :
    (roundFrac .binary32 (decide (k < 0)) (25 * k.natAbs) 65535).pack32 = fifths k := by
  refine roundFrac_eq_fifths hlt (by norm_num) ?_
  have hsame : ((25 * k.natAbs : Nat) / (65535 : Nat) : ℚ) = 5 * k.natAbs / 13107 := by
    push_cast
    ring
  rw [hsame, sub_self, abs_zero]
  positivity

/-- Settles O28: the binary64 errors are below what the rounding to binary32 can tell. -/
theorem thermalConversionsAreExactlyRounded : Obligations.ThermalConversionsAreExactlyRounded := by
  intro raw
  have htemp := roundFrac_65535_eq_fifths (temperatureFifths_bound raw)
  have hhum := roundFrac_65535_eq_fifths (humidity_bound raw)
  rw [convT_binary64_eq_fifths, convH_binary64_eq_fifths, ← htemp, ← hhum]
  unfold temperatureFifths
  constructor
  · congr 2
    · rw [decide_eq_decide]
      omega
    · omega
  · rw [decide_humidity_neg]
    congr 2
    omega

/-! ## Range and order (R179) -/

/-- The signed value. -/
def Fp.value (x : Fp) : ℚ := x.signed / x.den

theorem Fp.value_eq (x : Fp) : x.value = if x.neg then -x.mag else x.mag := by
  unfold Fp.value Fp.signed Fp.mag
  split <;> push_cast <;> ring

theorem Fp.less_iff {x y : Fp} (hx : 0 < x.den) (hy : 0 < y.den) : x.Less y ↔ x.value < y.value := by
  have hx' : (0 : ℚ) < x.den := by exact_mod_cast hx
  have hy' : (0 : ℚ) < y.den := by exact_mod_cast hy
  rw [Fp.value, Fp.value, div_lt_div_iff₀ hx' hy']
  unfold Fp.Less
  exact_mod_cast Iff.rfl

theorem fp32Value_den_pos (w : Word32) : 0 < (fp32Value w).den := by
  unfold fp32Value
  simp only [pow2_eq]
  split <;> exact Nat.two_pow_pos _

section Fifths

variable {k : Int} (hlt : 5 * k.natAbs < 13107 * 2 ^ 8)
include hlt

theorem exists_roundFrac_fifths_eq (hne : k ≠ 0) :
    ∃ m up : Nat, 2 ^ 23 ≤ m ∧ m < 2 ^ 24 ∧ up ≤ 149 ∧
      roundFrac .binary32 (decide (k < 0)) (5 * k.natAbs) 13107 = ⟨decide (k < 0), m, 2 ^ up⟩ := by
  obtain ⟨m, up, hlo, hhi, hup, h⟩ := exists_roundFrac_eq_of_close (Int.natAbs_pos.mpr hne) hlt
  refine ⟨m, up, hlo, hhi, hup, h _ _ _ (by norm_num) ?_⟩
  push_cast
  rw [sub_self, abs_zero]
  positivity

/-- The value is normal and finite. -/
theorem fifths_exponent (hne : k ≠ 0) :
    1 ≤ ((fifths k).extractLsb' 23 8).toNat ∧ ((fifths k).extractLsb' 23 8).toNat ≤ 254 := by
  obtain ⟨m, up, hlo, hhi, hup, h⟩ := exists_roundFrac_fifths_eq hlt hne
  rw [fifths, h, (pack32_fields_of_normal _ hlo hhi hup).2.1]
  omega

theorem fp32Value_fifths_value :
    (fp32Value (fifths k)).value = (roundFrac .binary32 (decide (k < 0)) (5 * k.natAbs) 13107).value := by
  obtain rfl | hne := eq_or_ne k 0
  · simp [fifths, roundFrac, Fp.pack32, fp32Value, Fp.value, Fp.signed]
  · obtain ⟨m, up, hlo, hhi, hup, h⟩ := exists_roundFrac_fifths_eq hlt hne
    rw [fifths, h, fp32Value_pack32_of_normal _ hlo hhi hup]

/-- The rounding moves the value by far less than the step 5/13107. -/
theorem fifths_error : |(fp32Value (fifths k)).value - 5 * k / 13107| ≤ 1 / 2 ^ 16 := by
  have hmag : |(roundFrac .binary32 (decide (k < 0)) (5 * k.natAbs) 13107).mag - 5 * k.natAbs / 13107| ≤ 1 / 2 ^ 16 := by
    have hnormal : 5 * k.natAbs = 0 ∨ (2 : ℚ) ^ 23 ≤ (5 * k.natAbs : Nat) / (13107 : Nat) * 2 ^ 149 := by
      refine (Nat.eq_zero_or_pos _).imp_right fun hpos => ?_
      have : (1 : ℚ) ≤ (5 * k.natAbs : Nat) := by exact_mod_cast hpos
      push_cast at this ⊢
      linarith
    have herr := roundFrac_mag_error (f := .binary32) (by decide) (by decide) (decide (k < 0)) (by norm_num) hnormal
    have hrange : (5 * k.natAbs : ℚ) < 13107 * 2 ^ 8 := by exact_mod_cast hlt
    change _ ≤ _ / (2 : ℚ) ^ 24 at herr
    push_cast at herr
    linarith
  rw [fp32Value_fifths_value hlt, Fp.value_eq, roundFrac_neg, abs_le]
  obtain ⟨hlo, hhi⟩ := abs_le.mp hmag
  by_cases hneg : k < 0
  · have habs : (k.natAbs : ℚ) = -k := by rw [Nat.cast_natAbs, abs_of_neg hneg, Int.cast_neg]
    rw [habs] at hlo hhi
    rw [if_pos (decide_eq_true hneg)]
    constructor <;> linarith
  · have habs : (k.natAbs : ℚ) = k := by rw [Nat.cast_natAbs, abs_of_nonneg (not_lt.mp hneg)]
    rw [habs] at hlo hhi
    rw [if_neg (by simpa using hneg)]
    exact ⟨hlo, hhi⟩

end Fifths

theorem fifths_less {k l : Int} (hk : 5 * k.natAbs < 13107 * 2 ^ 8) (hl : 5 * l.natAbs < 13107 * 2 ^ 8) (h : k < l) :
    (fp32Value (fifths k)).Less (fp32Value (fifths l)) := by
  rw [Fp.less_iff (fp32Value_den_pos _) (fp32Value_den_pos _)]
  have hstep : (k + 1 : ℚ) ≤ l := by exact_mod_cast h
  have hk' := (abs_le.mp (fifths_error hk)).2
  have hl' := (abs_le.mp (fifths_error hl)).1
  linarith

/-- Settles O29: the exact values are steps of at least 5/13107 apart, far more than the roundings move them. -/
theorem thermalConversionsIncreaseWithinRange : Obligations.ThermalConversionsIncreaseWithinRange := by
  unfold Obligations.ThermalConversionsIncreaseWithinRange
  simp only [convT_binary64_eq_fifths, convH_binary64_eq_fifths]
  refine ⟨fun a b hab => ⟨?_, ?_⟩, by decide +kernel, by decide +kernel, by decide +kernel, by decide +kernel, fun raw => ?_⟩
  · exact fifths_less (temperatureFifths_bound a) (temperatureFifths_bound b) (by unfold temperatureFifths; omega)
  · exact fifths_less (humidity_bound a) (humidity_bound b) (by omega)
  · obtain ⟨hlo, hhi⟩ := fifths_exponent (temperatureFifths_bound raw) (temperatureFifths_ne_zero raw)
    refine ⟨hlo, hhi, ?_⟩
    obtain rfl | hne := eq_or_ne raw 0
    · exact .inl ⟨by decide +kernel, rfl⟩
    · refine .inr (fifths_exponent (humidity_bound raw) ?_)
      have : raw.toNat ≠ 0 := fun h => hne (BitVec.eq_of_toNat_eq h)
      omega

/-! ## Where the precisions differ (R177) -/

/-- At `2 ^ -18` a unit, the exact temperature of `raw` is nearer to `m` units than to the middle of two by more than the error of the binary32 quotient. -/
def TemperatureMargin (raw m : Nat) : Prop :=
  128 * |(m * 13107 - (589815 - 35 * raw) * 2 ^ 18 : Int)| + 70 * raw < 64 * 13107

/-- The temperatures of all codes below 327 lie between -45 and -44, so one scale serves them. -/
theorem roundFrac_eq_of_margin {raw m num den : Nat} (neg : Bool) (hlt : raw < 327) (hmargin : TemperatureMargin raw m)
    (hden : 0 < den) (hclose : |(num / den : ℚ) - (45 - 175 * raw / 65535)| ≤ 175 * raw / 65535 / 2 ^ 24) :
    roundFrac .binary32 neg num den = ⟨neg, m, 2 ^ 18⟩ := by
  unfold TemperatureMargin at hmargin
  have hrange : (raw : ℚ) < 327 := by exact_mod_cast hlt
  have hmarginQ := (Int.cast_lt (R := ℚ)).mpr hmargin
  push_cast at hmarginQ
  obtain ⟨hlo, hhi⟩ := abs_le.mp hclose
  have hm := abs_le.mp (le_refl |(m * 13107 - (589815 - 35 * raw) * 262144 : ℚ)|)
  refine roundFrac_eq_of_near (by decide) neg hden (by decide) ?_ ?_ (abs_lt.mpr ⟨?_, ?_⟩)
  · show (2 : ℚ) ^ 23 ≤ _
    linarith
  · show _ < (2 : ℚ) ^ 24
    linarith
  · linarith
  · linarith

theorem convT_binary32_eq_fifths_of_margin {raw : Word16} {m : Nat} (hlt : raw.toNat < 327)
    (hmargin : TemperatureMargin raw.toNat m) : convT .binary32 raw = fifths (temperatureFifths raw) := by
  have herr := temperatureQuotient_error (f := .binary32) (by decide) (by decide) raw
  change _ ≤ _ / (2 : ℚ) ^ 24 at herr
  have hrange : (raw.toNat : ℚ) < 327 := by exact_mod_cast hlt
  have habs : |(175 * raw.toNat / 65535 - 45 : ℚ)| = 45 - 175 * raw.toNat / 65535 := by
    rw [abs_of_neg (by linarith), neg_sub]
  obtain ⟨num, den, hden, hratio, hsub⟩ := exists_temperature_difference .binary32 (raw := raw) (by linarith)
  have hquot := abs_distance_sub_le herr 45
  rw [← hratio, habs] at hquot
  have hexact : ((5 * (temperatureFifths raw).natAbs : Nat) / (13107 : Nat) : ℚ) = 45 - 175 * raw.toNat / 65535 := by
    rw [← habs, abs_temperature_exact]
    push_cast
    rfl
  calc convT .binary32 raw = (Fp.sub .binary32 (sensorQuotient .binary32 175 raw) (Fp.ofNat 45)).pack32 := rfl
    _ = fifths (temperatureFifths raw) := by
      rw [hsub, fifths, roundFrac_eq_of_margin _ hlt hmargin hden hquot,
        roundFrac_eq_of_margin _ hlt hmargin (by norm_num) (by rw [hexact, sub_self, abs_zero]; positivity)]

/-- Only codes 140 and 234 below 327 have no such margin. -/
theorem temperatureMargin_below_327 : ∀ raw < 327, raw = 140 ∨ raw = 234 ∨
    TemperatureMargin raw (roundDiv ((589815 - 35 * raw) * 2 ^ 18) 13107) := by
  unfold TemperatureMargin
  decide +kernel

/-- Settles O30: by the margin for each code below 327 that has one, and by running the conversions for the others. -/
theorem precisionsFirstDifferAtCode327 : Obligations.PrecisionsFirstDifferAtCode327 := by
  refine ⟨fun raw hlt => ?_, by decide +kernel, by decide +kernel, by decide +kernel, by decide +kernel⟩
  obtain h | h | hmargin := temperatureMargin_below_327 raw.toNat hlt
  · obtain rfl : raw = 140 := BitVec.eq_of_toNat_eq h
    decide +kernel
  · obtain rfl : raw = 234 := BitVec.eq_of_toNat_eq h
    decide +kernel
  · rw [convT_binary32_eq_fifths_of_margin hlt hmargin, convT_binary64_eq_fifths]

end Sys2Proof.Machine

/-! PROOFS for the statements of spec/44_command_frames.md: the answer of CMD_FRAME to every form (R190, R191), and the checksum of the PM command frames (R192). -/

namespace Sys2Proof.Machine

/-! ## The answers of CMD_FRAME (R190, R191) -/

section CmdFrame

variable {arg : Nibble} {buf : List Byte}

theorem wellFormed_cmdFrame_iff : (Instr.cmdFrame arg buf).wellFormed = true ↔ arg.toNat ≤ 3 ∧ buf = [] := by
  rw [Instr.wellFormed, Bool.and_eq_true, decide_eq_true_eq, decide_eq_true_eq, List.length_eq_zero_iff]

theorem exec_cmdFrame_of_entry {s : State} {t : CmdTable} {bs : List Byte} (htable : s.cmd = t)
    (hle : arg.toNat ≤ 3) (hentry : t.entry arg.toNat = some bs) :
    exec (.cmdFrame arg []) s = .next (s.deliver .cmdu ⟨3, arg, []⟩ ⟨.ok, .bytes bs⟩) :=
  exec_of_wellFormed (wellFormed_cmdFrame_iff.mpr ⟨hle, rfl⟩) (cmdResponse_of_entry (htable ▸ hentry))

theorem exec_cmdFrame_of_illegal (s : State) (h : 3 < arg.toNat ∨ buf ≠ []) :
    exec (.cmdFrame arg buf) s = .next (s.deliver .cmdu ⟨3, arg, buf⟩ ⟨.illegalRequest, .none⟩) := by
  refine exec_of_not_wellFormed fun hwf => ?_
  obtain ⟨hle, hbuf⟩ := wellFormed_cmdFrame_iff.mp hwf
  exact h.elim (Nat.not_lt.mpr hle) (absurd hbuf)

end CmdFrame

/-- Settles O31: the four frames are the built table's entries, and a selector up to 3 without data is the one legal form. -/
theorem commandFramesAreTheTable : Obligations.CommandFramesAreTheTable :=
  ⟨fun _ htable => ⟨exec_cmdFrame_of_entry htable (by decide) rfl, exec_cmdFrame_of_entry htable (by decide) rfl,
      exec_cmdFrame_of_entry htable (by decide) rfl, exec_cmdFrame_of_entry htable (by decide) rfl⟩,
    fun _ _ s h => exec_cmdFrame_of_illegal s h, by decide, by decide, by decide, by decide⟩

/-! ## The PM command checksums (R192) -/

/-- Settles O32: each of the three entries of the built table is summed. -/
theorem pmCommandFramesCarryTheirSum : Obligations.PmCommandFramesCarryTheirSum := by
  intro s bs hs hentry
  match s, hs with
  | 0, _ | 1, _ | 2, _ =>
    cases hentry
    decide

end Sys2Proof.Machine

/-! PROOFS for the statements of spec/60_exceptions.md: no step faults and none refuses (R200, R235). -/

namespace Sys2Proof.Machine

theorem step_of_no_move {s : State} (h : s.schedule = []) (hu : s.firstEnabled = none) : step s = .next s := by
  simp only [step, advance, h, hu]

/-- Settles O36: the move of a scheduled event and the move of an enabled unit answer, and with no move the state stays. -/
theorem everyStepAnswers : Obligations.EveryStepAnswers := by
  intro s
  cases hsched : s.schedule with
  | cons e rest => exact step_of_schedule hsched ▸ eventMove_answers { s with schedule := rest } e
  | nil =>
    cases hfirst : s.firstEnabled with
    | some u => exact step_of_no_schedule hsched hfirst ▸ unitMove_answers s u
    | none => exact ⟨s, step_of_no_move hsched hfirst⟩

end Sys2Proof.Machine

/-! PROOFS for the statements of spec/70_reset_and_hazards.md: a delivered response is final (R230, R234), and with nothing more scheduled every request is answered (R235). -/

namespace Sys2Proof.Machine

/-! ## Delivered responses (R234) -/

/-- `t` has every response delivered in `s`, and at most more at the end. -/
def State.DeliveriesExtend (s t : State) : Prop :=
  (∀ u, s.delivered.get u <+: t.delivered.get u) ∧ s.ifaceDelivered <+: t.ifaceDelivered

theorem State.DeliveriesExtend.of_eq {s t : State} (hunits : t.delivered = s.delivered)
    (hiface : t.ifaceDelivered = s.ifaceDelivered) : s.DeliveriesExtend t :=
  ⟨fun _ => hunits ▸ List.prefix_refl _, hiface ▸ List.prefix_refl _⟩

theorem State.deliver_extends (s : State) (u : UnitId) (r : Request) (resp : Response) :
    s.DeliveriesExtend (s.deliver u r resp) := by
  refine ⟨fun v => ?_, List.prefix_refl _⟩
  rw [State.deliver_delivered, PerUnit.get_set]
  split_ifs with hv
  · exact hv ▸ List.prefix_append ..
  · exact List.prefix_refl _

theorem State.deliverInterface_extends (s : State) (r : Request) (resp : Response) :
    s.DeliveriesExtend (s.deliverInterface r resp) :=
  ⟨fun _ => List.prefix_refl _, List.prefix_append ..⟩

theorem hostMove_extends (s : State) (r : Request) : s.DeliveriesExtend (hostMove s r) := by
  cases hr : r.unit with
  | none => exact hostMove_of_no_unit hr ▸ s.deliverInterface_extends ..
  | some u => exact hostMove_of_unit hr ▸ .of_eq rfl rfl

theorem unitMove_extends {s t : State} {u : UnitId} (h : unitMove s u = .next t) : s.DeliveriesExtend t := by
  rcases unitMove_next h with ⟨r, i, -, -, hexec⟩ | ⟨r, e, -, -, rfl⟩ | ⟨-, -, rfl⟩ | ⟨r, ws, -, -, rfl⟩
  · obtain ⟨resp, rfl⟩ := exec_next hexec
    exact s.deliver_extends ..
  · exact (s.dropRequest u).deliverInterface_extends ..
  · exact .of_eq rfl rfl
  · exact .of_eq rfl rfl

theorem eventMove_extends {s t : State} {e : Event} (h : eventMove s e = .next t) : s.DeliveriesExtend t := by
  cases e with
  | host r => cases h; exact hostMove_extends s r
  | unit u => exact unitMove_extends h
  | reset => cases h; exact .of_eq rfl rfl

/-- Settles O48: an answer is put at the end, by a unit or by the interface, and reset writes no delivery. -/
theorem deliveredResponsesAreFinal : Obligations.DeliveredResponsesAreFinal := by
  intro s t h
  rcases step_next_event h with rfl | ⟨e, rest, hmove, -, -⟩
  · exact State.DeliveriesExtend.of_eq rfl rfl
  · exact (eventMove_extends hmove :)

/-! ## The moves a unit owes (R235) -/

/-- The moves one unit owes, as it sees itself. -/
def UnitView.work (v : UnitView) : Nat := 2 * v.waiting.length + v.ustate.request.length

theorem State.workOf_eq (s : State) (u : UnitId) : s.workOf u = (s.view u).work := rfl

/-- Each move of the cycle is one of those owed; a unit that waits owes none. -/
theorem UnitView.Move.work_eq {v v' : UnitView} (h : v.Move v') : v'.work = v.work - 1 := by
  cases h <;> rfl

theorem State.workOf_eq_zero {s : State} {u : UnitId} :
    s.workOf u = 0 ↔ s.ustate.get u = .idle ∧ s.waiting.get u = [] := by
  cases hu : s.ustate.get u <;> simp [State.workOf, hu, UState.request]

theorem State.workOf_pos_of_enabled {s : State} {u : UnitId} (h : s.enabled u = true) : 0 < s.workOf u := by
  refine Nat.pos_of_ne_zero fun hzero => ?_
  obtain ⟨hu, hw⟩ := State.workOf_eq_zero.mp hzero
  simp [State.enabled, hu, hw] at h

theorem State.workOf_of_not_enabled {s : State} {u : UnitId} (h : s.enabled u = false) : s.workOf u = 0 := by
  cases hu : s.ustate.get u with
  | idle => exact State.workOf_eq_zero.mpr ⟨hu, by simpa [State.enabled, hu] using h⟩
  | busy r => simp [State.enabled, hu] at h

theorem State.work_eq_zero {s : State} : s.work = 0 ↔ ∀ u, s.workOf u = 0 := by
  constructor
  · intro h u
    unfold State.work at h
    cases u <;> omega
  · intro h
    simp only [State.work, h]

theorem State.enabled_of_firstEnabled {s : State} {u : UnitId} (h : s.firstEnabled = some u) : s.enabled u = true :=
  List.find?_some h

/-- The order of the units has all five, so while moves are owed one of them is found. -/
theorem State.work_of_firstEnabled_none {s : State} (h : s.firstEnabled = none) : s.work = 0 := by
  refine State.work_eq_zero.mpr fun u => State.workOf_of_not_enabled ?_
  exact Bool.eq_false_of_not_eq_true (List.find?_eq_none.mp h u (by cases u <;> decide))

/-- A unit's move takes one off what the units owe, when that unit owes any. -/
theorem unitMove_work {s t : State} {u : UnitId} (hs : s.Wired) (h : unitMove s u = .next t) (hu : 0 < s.workOf u) :
    t.work + 1 = s.work := by
  obtain ⟨hmove, hother⟩ := unitMove_views hs h
  have hwork : ∀ v, t.workOf v = s.workOf v - if v = u then 1 else 0 := fun v => by
    split_ifs with hv
    · exact hv ▸ hmove.work_eq
    · exact congrArg UnitView.work (hother v hv)
  simp only [State.work, hwork]
  cases u <;> simp only [reduceCtorEq, if_true, if_false] <;> omega

/-- With an empty schedule and moves owed, a step makes one of them and loses no request. -/
theorem State.Wired.step_of_work {s : State} (hs : s.Wired) (hsched : s.schedule = []) (hwork : 0 < s.work) :
    ∃ t, step s = .next t ∧ t.Wired ∧ t.schedule = [] ∧ t.work + 1 = s.work ∧ ∀ u, t.history u = s.history u := by
  cases hfirst : s.firstEnabled with
  | none => exact absurd (State.work_of_firstEnabled_none hfirst) hwork.ne'
  | some u =>
    obtain ⟨t, hmove⟩ := unitMove_answers s u
    have howed := State.workOf_pos_of_enabled (State.enabled_of_firstEnabled hfirst)
    exact ⟨t, (step_of_no_schedule hsched hfirst).trans hmove, hs.unitMove hmove,
      (unitMove_cmd_schedule hmove).2.trans hsched, unitMove_work hs hmove howed, unitMove_history hs hmove⟩

theorem run_work (n : Nat) : ∀ {s : State}, s.Wired → s.schedule = [] → s.work = n →
    ∃ t : State, Host.Core.run Sys2Proof.core n s = .next t ∧ t.work = 0 ∧ ∀ u, t.history u = s.history u := by
  induction n with
  | zero => exact fun {s} _ _ hwork => ⟨s, rfl, hwork, fun _ => rfl⟩
  | succ n ih =>
    intro s hs hsched hwork
    obtain ⟨m, hstep, hm, hmsched, hmwork, hmhist⟩ := hs.step_of_work hsched (by omega)
    obtain ⟨t, hrun, htwork, hthist⟩ := ih hm hmsched (by omega)
    exact ⟨t, (run_succ_of_step Sys2Proof.core hstep n).trans hrun, htwork, fun u => (hthist u).trans (hmhist u)⟩

/-- A unit that owes no move has answered its whole history. -/
theorem State.history_of_idle {s : State} {u : UnitId} (hu : s.ustate.get u = .idle) (hw : s.waiting.get u = []) :
    s.history u = (s.delivered.get u).map (·.req) := by
  simp [State.history, hu, hw, UState.request]

/-- Settles O49, by induction on the moves owed: each step makes one and keeps every unit's history, which is all answered when none is owed. -/
theorem outstandingRequestsAreAllAnswered : Obligations.OutstandingRequestsAreAllAnswered := by
  intro s hs hsched
  obtain ⟨t, hrun, hwork, hhist⟩ := run_work s.work hs hsched rfl
  refine ⟨t, hrun, fun u => ?_⟩
  obtain ⟨hu, hw⟩ := State.workOf_eq_zero.mp (State.work_eq_zero.mp hwork u)
  exact ⟨hu, hw, (State.history_of_idle hu hw).symm.trans (hhist u)⟩

end Sys2Proof.Machine
